-- ==== Sys2Proof/Word.lean ====
section
/-! DEFINITION. The words of the block (00_scope.md R8): unsigned, of a stated width, bit 0 least significant. -/

namespace Sys2Proof

/-- One byte of a report or of non-volatile storage. -/
abbrev Byte := BitVec 8

/-- A 4-bit value: a hex digit, a command nibble. -/
abbrev Nibble := BitVec 4

/-- A pairing address, ADDR_WIDTH = 20 bits (00_scope.md R6, 10_state.md R21). -/
abbrev Addr := BitVec 20

/-- A codeword, CW_WIDTH = 24 bits (30_encoding.md R88). -/
abbrev Codeword := BitVec 24

/-- The socket mask, one bit per socket (10_state.md R22). -/
abbrev Mask := BitVec 4

/-- The 64-bit port word of a report (10_state.md R35, 30_encoding.md R80). -/
abbrev Word64 := BitVec 64

end Sys2Proof
end

