-- ==== Sys2Proof/Config.lean ====
section
/-! DEFINITION. The parameters of 00_scope.md: R6 (fixed by the spec) as numbers, R7 (left open) as constants
without a body that satisfy exactly the constraint the spec states, and the free values. -/

namespace Sys2Proof.Config

/-! ## Fixed parameters (R6) -/

/-- NSOCK. -/
def nsock : Nat := 4
/-- TX_BITS, the `bitLength` the block passes to the transmitter. -/
def txBits : Nat := 24
/-- REPORT_LEN, bytes of a report. -/
def reportLen : Nat := 8
/-- T_LONG, in microseconds. -/
def tLong : Nat := 600
/-- T_SHORT, in microseconds. -/
def tShort : Nat := 200
/-- T_SYNC, in microseconds. -/
def tSync : Nat := 200
/-- T_GAP, in microseconds. -/
def tGap : Nat := 30000
/-- Q, the quantum of 200 µs all durations are multiples of (R7). -/
def quantum : Nat := 200
/-- The gap in quanta (42_rf_transmitter.md R141). -/
def gapQuanta : Nat := 150
/-- REPEATS, frames per accepted command. -/
def repeats : Nat := 10
/-- NV_OFF, the offsets of the three stored copies, in the order they are written (20_memory.md R68). -/
def nvOffsets : List Nat := [0x00, 0x40, 0x80]
/-- NV_LEN, bytes of one stored copy (20_memory.md R61). -/
def nvLen : Nat := 3
/-- OPC_ALL_ON. -/
def opcAllOn : Byte := 0xFE
/-- OPC_ALL_OFF. -/
def opcAllOff : Byte := 0xFC
/-- OPC_ON. -/
def opcOn : Byte := 0xFF
/-- OPC_OFF. -/
def opcOff : Byte := 0xFD
/-- OPC_SET_SERIAL. -/
def opcSetSerial : Byte := 0xFA
/-- The value of an erased byte of storage (20_memory.md R63). -/
def erasedByte : Byte := 0xFF

/-! ## Open parameters (R7)

No body: nothing in Lean can evaluate them, so a claim holds for every value the spec admits (log 7). -/

/-- DEFAULT_ADDR: any 20-bit value (92_eei_decisions.md D5). -/
opaque defaultAddr : Addr
/-- DEBOUNCE_OFF in ticks: any natural number. -/
opaque debounceOff : Nat
/-- By how much DEBOUNCE_ON exceeds DEBOUNCE_OFF: any natural number, which is the constraint DEBOUNCE_ON ≥ DEBOUNCE_OFF. -/
opaque debounceExtra : Nat
/-- DEBOUNCE_ON in ticks. -/
def debounceOn : Nat := debounceOff + debounceExtra
/-- DEB_MAX, the larger of the two. -/
def debMax : Nat := debounceOn
/-- CLK_PER_Q less one: any natural number, which is the constraint that CLK_PER_Q is positive. -/
opaque clkPerQLessOne : Nat
/-- CLK_PER_Q, clock cycles per quantum: influences nothing observable (70_reset_and_hazards.md R254, log 8). -/
def clkPerQ : Nat := clkPerQLessOne + 1
/-- The longest blocking operation, a TICK that transmits, in microseconds (70_reset_and_hazards.md R253). -/
def longestOperation : Nat := txBits * (tLong + tShort) + tSync + tGap
/-- By how much WDT_TIMEOUT exceeds the least admitted value. -/
opaque wdtMargin : Nat
/-- WDT_TIMEOUT in microseconds: greater than the longest blocking operation (log 8). -/
def wdtTimeout : Nat := longestOperation + 1 + wdtMargin

/-! ## Free values (log 5, log 11)

Values the spec leaves unspecified, one for each number of the counter `State.freeIdx`. -/

/-- ADDR between RESET and the boot load (10_state.md R41, 93_implementation_defined.md U13). -/
opaque freeAddr : Nat → Addr
/-- SHREG after RESET (10_state.md R41, 93_implementation_defined.md U14). -/
opaque freeShreg : Nat → Codeword
/-- CUR after RESET. -/
opaque freeCur : Nat → Bool
/-- BITCNT after RESET, within its range 0..24 (10_state.md R31). -/
opaque freeBitcnt : Nat → Fin 25
/-- QCNT after RESET, within its range 0..150 (10_state.md R31). -/
opaque freeQcnt : Nat → Fin 151
/-- A byte of a stored copy torn by a reset (93_implementation_defined.md U22). -/
opaque freeNvByte : Nat → Byte

end Sys2Proof.Config
end

