-- ==== Sys2Proof/Syntax.lean ====
section
/-! DEFINITION. The syntax of the block: the report (30_encoding.md R80), the instruction set of
spec/opcode_table.json, the logical actions of the codeword encoder (41_codeword_encoder.md R120), and the textual
lines of 30_encoding.md R96 as data. -/

namespace Sys2Proof

/-- A report: 8 bytes, `b0` = `report[0]`, the first byte of the host's buffer (00_scope.md R8, 30_encoding.md R80). -/
structure Report where
  b0 : Byte
  b1 : Byte
  b2 : Byte
  b3 : Byte
  b4 : Byte
  b5 : Byte
  b6 : Byte
  b7 : Byte
  deriving DecidableEq, Repr

/-- The report as the 64-bit word of the ports: byte i at bits 8i+7 : 8i (30_encoding.md R80). -/
def Report.word (r : Report) : Word64 :=
  r.b7 ++ r.b6 ++ r.b5 ++ r.b4 ++ r.b3 ++ r.b2 ++ r.b1 ++ r.b0

/-- The report whose port word is `w` (30_encoding.md R80). -/
def Report.ofWord (w : Word64) : Report where
  b0 := w.extractLsb' 0 8
  b1 := w.extractLsb' 8 8
  b2 := w.extractLsb' 16 8
  b3 := w.extractLsb' 24 8
  b4 := w.extractLsb' 32 8
  b5 := w.extractLsb' 40 8
  b6 := w.extractLsb' 48 8
  b7 := w.extractLsb' 56 8

/-- A socket of the fixed 4-socket model (00_scope.md R6). -/
inductive Socket where
  | s1
  | s2
  | s3
  | s4
  deriving DecidableEq, Repr

/-- The 1-based index of a socket (30_encoding.md R85). -/
def Socket.index : Socket → Nat
  | .s1 => 1
  | .s2 => 2
  | .s3 => 3
  | .s4 => 4

/-- A logical action of the codeword encoder: one of ten (41_codeword_encoder.md R120, R121). -/
inductive Action where
  | allOn
  | allOff
  | on (k : Socket)
  | off (k : Socket)
  deriving DecidableEq, Repr

/-- The instructions: one constructor for each row of spec/opcode_table.json (30_encoding.md R97). -/
inductive Instr where
  | allOn
  | allOff
  | on1
  | on2
  | on3
  | on4
  | off1
  | off2
  | off3
  | off4
  | setSerial (a : Addr)
  | ignored
  deriving DecidableEq, Repr

/-- The action a socket command asks for; the other two commands have none (90_conflicts.md C1). -/
def Instr.action : Instr → Option Action
  | .allOn => some .allOn
  | .allOff => some .allOff
  | .on1 => some (.on .s1)
  | .on2 => some (.on .s2)
  | .on3 => some (.on .s3)
  | .on4 => some (.on .s4)
  | .off1 => some (.off .s1)
  | .off2 => some (.off .s2)
  | .off3 => some (.off .s3)
  | .off4 => some (.off .s4)
  | .setSerial _ => none
  | .ignored => none

/-- One of the block's atomic operations (00_scope.md R5). -/
inductive Op where
  | reset
  | write (r : Report)
  | read
  | tick
  deriving DecidableEq, Repr

/-- One line of the spec's textual syntax (30_encoding.md R96). -/
inductive Line where
  | allOn
  | allOff
  | on (n : Nat)
  | off (n : Nat)
  | setSerial (chars : List Byte)
  | raw (r : Report)
  | read
  | tick (k : Nat)
  | reset
  deriving DecidableEq, Repr

end Sys2Proof
end

