-- ==== Sys2Proof/WellFormed.lean ====
section
/-! DEFINITION. Well-formedness. The types of `Instr` carry every bound of an instruction (twenty bits of address, the
socket inside the constructor), so each of its terms is well formed; the textual lines carry numbers and characters
that can be out of range, and those are checked here. -/

namespace Sys2Proof

/-- Every term of `Instr` stands for a command: "Every 20-bit value is legal" (10_state.md R21), the socket index is in
the constructor. -/
def Instr.wf : Instr → Bool
  | .allOn => true
  | .allOff => true
  | .on1 => true
  | .on2 => true
  | .on3 => true
  | .on4 => true
  | .off1 => true
  | .off2 => true
  | .off3 => true
  | .off4 => true
  | .setSerial _ => true
  | .ignored => true

/-- A line of 30_encoding.md R96 is well formed: the index of ON and OFF is "a decimal integer 0..255" and the string of
SET_SERIAL has "five characters". (An index outside 1..4 or a character that is no digit is well formed: its report is
IGNORED.) -/
def Line.wf : Line → Bool
  | .allOn => true
  | .allOff => true
  | .on n => decide (n ≤ 255)
  | .off n => decide (n ≤ 255)
  | .setSerial cs => decide (cs.length = 5)
  | .raw _ => true
  | .read => true
  | .tick _ => true
  | .reset => true

end Sys2Proof
end

