-- ==== Sys2Proof/Machine/Operands.lean ====
section
/-! DEFINITION. The operand forms: hex digits (30_encoding.md R87), the address payload (R86), the socket index (R85),
the fields of an address, the stored record (20_memory.md R61). -/

namespace Sys2Proof.Machine

/-- HexVal(c): '0'..'9', 'A'..'F', 'a'..'f', and None for every other byte (30_encoding.md R87). -/
def hexVal (c : Byte) : Option Nibble :=
  if 0x30 ≤ c ∧ c ≤ 0x39 then some ((c - 0x30).setWidth 4)
  else if 0x41 ≤ c ∧ c ≤ 0x46 then some ((c - 0x41 + 10).setWidth 4)
  else if 0x61 ≤ c ∧ c ≤ 0x66 then some ((c - 0x61 + 10).setWidth 4)
  else none

/-- HexChar(v): '0'..'9', 'A'..'F' (30_encoding.md R87). -/
def hexChar (v : Nibble) : Byte :=
  if v < 10 then 0x30 + v.setWidth 8 else 0x41 + v.setWidth 8 - 10

/-- The 20-bit address of five nibbles, the first the most significant (30_encoding.md R86). -/
def addrOfNibbles (n0 n1 n2 n3 n4 : Nibble) : Addr :=
  n0 ++ n1 ++ n2 ++ n3 ++ n4

/-- ParseAddr(p) of the seven forwarded bytes p[0..6] = report[1..7]; p[5] and p[6] are not used (30_encoding.md R86). -/
def parseAddr (p0 p1 p2 p3 p4 _p5 _p6 : Byte) : Option Addr :=
  match hexVal p0, hexVal p1, hexVal p2, hexVal p3, hexVal p4 with
  | some n0, some n1, some n2, some n3, some n4 => some (addrOfNibbles n0 n1 n2 n3 n4)
  | _, _, _, _, _ => none

/-- IDX as an unsigned byte, valid when 1 ≤ IDX ≤ 4, not scaled, masked or reduced (30_encoding.md R85). -/
def socketOfIndex (b : Byte) : Option Socket :=
  if b = 1 then some .s1
  else if b = 2 then some .s2
  else if b = 3 then some .s3
  else if b = 4 then some .s4
  else none

/-- The k-th hex digit of an address counted from the least significant: ADDR[4k+3 : 4k]. -/
def addrNibble (a : Addr) (k : Nat) : Nibble :=
  a.extractLsb' (4 * k) 4

/-- The stored record of an address: zext_24(a), little-endian (20_memory.md R61). -/
def recordOf (a : Addr) : List Byte :=
  [a.extractLsb' 0 8, a.extractLsb' 8 8, (a.extractLsb' 16 4).setWidth 8]

/-- The erased test: all NV_LEN bytes equal 0xFF (20_memory.md R63). -/
def erasedRecord (bs : List Byte) : Bool :=
  bs.all (· == Config.erasedByte)

/-- The address of a record that is not erased: { b[2][3:0], b[1], b[0] } (40_pairing_store.md R110). -/
def recordAddr (b0 b1 b2 : Byte) : Addr :=
  b2.extractLsb' 0 4 ++ b1 ++ b0

end Sys2Proof.Machine
end

