-- ==== Sys2Proof/Decode.lean ====
section
/-! DEFINITION. Decoding a report (30_encoding.md R82 to R87), the encoder, and the opcode table as data (R97). -/

namespace Sys2Proof

open Sys2Proof.Machine

/-- ON(n) as the constructor of its row. -/
def onInstr : Socket → Instr
  | .s1 => .on1
  | .s2 => .on2
  | .s3 => .on3
  | .s4 => .on4

/-- OFF(n) as the constructor of its row. -/
def offInstr : Socket → Instr
  | .s1 => .off1
  | .s2 => .off2
  | .s3 => .off3
  | .s4 => .off4

/-- Decode(report): total, every report decodes to exactly one command (30_encoding.md R83). -/
def decode (r : Report) : Instr :=
  if r.b0 = Config.opcAllOn then .allOn
  else if r.b0 = Config.opcAllOff then .allOff
  else if r.b0 = Config.opcOn then
    match socketOfIndex r.b1 with
    | some k => onInstr k
    | none => .ignored
  else if r.b0 = Config.opcOff then
    match socketOfIndex r.b1 with
    | some k => offInstr k
    | none => .ignored
  else if r.b0 = Config.opcSetSerial then
    match parseAddr r.b1 r.b2 r.b3 r.b4 r.b5 r.b6 r.b7 with
    | some a => .setSerial a
    | none => .ignored
  else .ignored

/-- Why a string of bytes is no command at all. -/
inductive DecodeError where
  /-- Its length is not REPORT_LEN: "Every command is one report of exactly REPORT_LEN = 8 bytes" (30_encoding.md R80).
  The host port hands over whole reports only, so the machine never meets it (log 25). -/
  | notOneReport (length : Nat)
  deriving DecidableEq, Repr

/-- Decoding of any string of bytes: eight bytes are a report, anything else is rejected by name (30_encoding.md R80, R95). -/
def decodeBytes (bs : List Byte) : Except DecodeError Instr :=
  match bs with
  | [b0, b1, b2, b3, b4, b5, b6, b7] => .ok (decode ⟨b0, b1, b2, b3, b4, b5, b6, b7⟩)
  | _ => .error (.notOneReport bs.length)

/-- A report of one opcode and one index, the unexamined bytes 0 (30_encoding.md R96). -/
def shortReport (opc idx : Byte) : Report :=
  ⟨opc, idx, 0, 0, 0, 0, 0, 0⟩

/-- The report of an instruction, unexamined bytes 0, digits in upper case (30_encoding.md R82, R86, R87, R96; log 14). -/
def encode : Instr → Report
  | .allOn => shortReport Config.opcAllOn 0
  | .allOff => shortReport Config.opcAllOff 0
  | .on1 => shortReport Config.opcOn 1
  | .on2 => shortReport Config.opcOn 2
  | .on3 => shortReport Config.opcOn 3
  | .on4 => shortReport Config.opcOn 4
  | .off1 => shortReport Config.opcOff 1
  | .off2 => shortReport Config.opcOff 2
  | .off3 => shortReport Config.opcOff 3
  | .off4 => shortReport Config.opcOff 4
  | .setSerial a =>
    ⟨Config.opcSetSerial, hexChar (addrNibble a 4), hexChar (addrNibble a 3), hexChar (addrNibble a 2),
      hexChar (addrNibble a 1), hexChar (addrNibble a 0), 0, 0⟩
  | .ignored => shortReport 0 0

/-- The instruction the decoder reads from the bits `w`, the bits above `nbits` being 0: bit 0 is bit 0 of `report[0]`,
byte i of the report is bits 8i+7 : 8i (30_encoding.md R80, R97; log 15). -/
def decodeTableWord (nbits w : Nat) : Option Instr :=
  some (decode (Report.ofWord (BitVec.ofNat 64 (w % 2 ^ nbits))))

/-- A row of spec/opcode_table.json: a report selects it when `W & mask == match` (30_encoding.md R97). -/
structure OpcodeRow where
  mnemonic : String
  matchBits : Word64
  maskBits : Word64
  deriving DecidableEq, Repr

/-- The report word selects the row. -/
def OpcodeRow.selects (row : OpcodeRow) (w : Word64) : Bool :=
  w &&& row.maskBits == row.matchBits

/-- The table's row of an instruction, `match` and `mask` as spec/opcode_table.json has them. -/
def opcodeRow : Instr → OpcodeRow
  | .allOn => ⟨"ALL_ON", 0x00000000000000FE, 0x00000000000000FF⟩
  | .allOff => ⟨"ALL_OFF", 0x00000000000000FC, 0x00000000000000FF⟩
  | .on1 => ⟨"ON_1", 0x00000000000001FF, 0x000000000000FFFF⟩
  | .on2 => ⟨"ON_2", 0x00000000000002FF, 0x000000000000FFFF⟩
  | .on3 => ⟨"ON_3", 0x00000000000003FF, 0x000000000000FFFF⟩
  | .on4 => ⟨"ON_4", 0x00000000000004FF, 0x000000000000FFFF⟩
  | .off1 => ⟨"OFF_1", 0x00000000000001FD, 0x000000000000FFFF⟩
  | .off2 => ⟨"OFF_2", 0x00000000000002FD, 0x000000000000FFFF⟩
  | .off3 => ⟨"OFF_3", 0x00000000000003FD, 0x000000000000FFFF⟩
  | .off4 => ⟨"OFF_4", 0x00000000000004FD, 0x000000000000FFFF⟩
  | .setSerial _ => ⟨"SET_SERIAL", 0x00000000000000FA, 0x00000000000000FF⟩
  | .ignored => ⟨"IGNORED", 0x0000000000000000, 0x0000000000000000⟩

/-- The ten rows that are not fallback rows, in the table's order. -/
def primaryInstrs : List Instr :=
  [.allOn, .allOff, .on1, .on2, .on3, .on4, .off1, .off2, .off3, .off4]

/-- Reading the table as 30_encoding.md R97 says: the first primary row that the word selects, else SET_SERIAL when its
opcode matches and its payload parses, else IGNORED. -/
def decodeByTable (r : Report) : Instr :=
  match primaryInstrs.find? (fun i => (opcodeRow i).selects r.word) with
  | some i => i
  | none =>
    if (opcodeRow (.setSerial 0)).selects r.word then
      match parseAddr r.b1 r.b2 r.b3 r.b4 r.b5 r.b6 r.b7 with
      | some a => .setSerial a
      | none => .ignored
    else .ignored

/-- The bytes a line's string contributes: the k-th character, 0 where there is none. -/
def lineChar (cs : List Byte) (k : Nat) : Byte :=
  cs.getD k 0

/-- The operations a line stands for (30_encoding.md R96): one, and k of them for `TICK k`. -/
def Line.ops : Line → List Op
  | .allOn => [.write (shortReport Config.opcAllOn 0)]
  | .allOff => [.write (shortReport Config.opcAllOff 0)]
  | .on n => [.write (shortReport Config.opcOn (BitVec.ofNat 8 n))]
  | .off n => [.write (shortReport Config.opcOff (BitVec.ofNat 8 n))]
  | .setSerial cs =>
    [.write ⟨Config.opcSetSerial, lineChar cs 0, lineChar cs 1, lineChar cs 2, lineChar cs 3, lineChar cs 4, 0, 0⟩]
  | .raw r => [.write r]
  | .read => [.read]
  | .tick k => List.replicate k .tick
  | .reset => [.reset]

end Sys2Proof
end

