-- ==== Sys2Proof/Machine/State.lean ====
section
/-! DEFINITION. The state of the block (10_state.md R20), the events of its observation trace (00_scope.md R10), the
environment's side of its ports (10_state.md R35), and the reasons a step could stop. -/

namespace Sys2Proof.Machine

/-- TXS, the transmitter state (10_state.md R31). -/
inductive TxState where
  | idle
  | bitHi
  | bitLo
  | sync
  | gap
  deriving DecidableEq, Repr

/-- SCHED, the scheduler state, derived from the counters (10_state.md R26). -/
inductive Sched where
  | idle
  | debouncing
  | transmitting
  deriving DecidableEq, Repr

/-- What the outside can see of a run (00_scope.md R10). -/
inductive Event where
  /-- A WRITE completed. -/
  | ack
  /-- A READ returned these 8 bytes. -/
  | rdData (r : Report)
  /-- rf_out was held at `level` for `us` µs. -/
  | rf (level : Bool) (us : Nat)
  /-- The interrupt-suppression output rose. -/
  | critOn
  /-- The interrupt-suppression output fell. -/
  | critOff
  /-- A storage read of `n` bytes at `off` was issued. -/
  | nvRd (off n : Nat)
  /-- A storage write of `bytes` at `off` was issued. -/
  | nvWr (off : Nat) (bytes : List Byte)
  /-- The watchdog refresh output pulsed. -/
  | wdtKick
  /-- The block was reset. -/
  | reset
  deriving DecidableEq, Repr

/-- How far a SET_SERIAL had come when a reset cut it (70_reset_and_hazards.md R251): `copies` stored copies were
complete; with `torn`, the reset fell inside the write of the next copy (93_implementation_defined.md U22). -/
structure Cut where
  copies : Fin 4
  torn : Bool
  deriving DecidableEq, Repr

/-- The instant of a reset inside its cycle: while a frame is in flight, `us + 1` µs after the last quantum boundary
(1..200, log 10); where a SET_SERIAL is taken in this cycle and `cut` is given, inside that SET_SERIAL (log 11). -/
structure ResetPoint where
  us : Fin 200
  cut : Option Cut
  deriving DecidableEq, Repr

/-- What the environment does at the input ports in one cycle (10_state.md R35): asserts rst, offers a report, asks for a
read, strobes tick (log 2). -/
structure EnvCycle where
  rst : Option ResetPoint
  wr : Option Report
  rd : Bool
  tick : Bool
  deriving DecidableEq, Repr

/-- Nothing on any input port. -/
def EnvCycle.quiet : EnvCycle := ⟨none, none, false, false⟩

/-- Non-volatile storage as data (20_memory.md R60): the bytes that differ from the erased value, by offset. -/
abbrev Memory := List Host.Cell

/-- The state. First the block's own registers, all of 10_state.md R20; then what they act on; then the environment's side
of the ports and the model's counter of free values. -/
structure State where
  /-- ADDR (R21). -/
  addr : Addr
  /-- MASK (R22). -/
  mask : Mask
  /-- CW (R23). -/
  cw : Codeword
  /-- REP (R24). -/
  rep : Nat
  /-- DEB (R25). -/
  deb : Nat
  /-- BOOTED (R30). -/
  booted : Bool
  /-- rf_out (R30). -/
  rfOut : Bool
  /-- crit (R30). -/
  crit : Bool
  /-- busy (R30). -/
  busy : Bool
  /-- TXS (R31). -/
  txs : TxState
  /-- SHREG (R31). -/
  shreg : Codeword
  /-- CUR (R31). -/
  cur : Bool
  /-- BITCNT (R31). -/
  bitcnt : Nat
  /-- QCNT (R31). -/
  qcnt : Nat
  /-- The contents of non-volatile storage (R33, 20_memory.md R60). -/
  nv : Memory
  /-- The observation trace, oldest event first (00_scope.md R10). -/
  trace : List Event
  /-- Reports the host holds on the write port, the first one on the wires (R36). -/
  wrQueue : List Report
  /-- Reads the host waits for (R37). -/
  rdWaiting : Nat
  /-- The environment's coming cycles, the next one first; none left means a quiet environment. -/
  env : List EnvCycle
  /-- The number of the next free value. -/
  freeIdx : Nat
  deriving DecidableEq, Repr

/-- The reasons a step stops with a fault: none. "No operation of the block traps, faults, aborts, returns an error or
enters a handler. Every operation that starts, completes." (60_exceptions.md R210). -/
inductive Fault where
  deriving DecidableEq, Repr

/-- The reasons a step is refused. -/
inductive Refusal where
  /-- Raised by an arm of `exec` whose instruction has no meaning yet; safe (nothing can be proved of it). No arm raises
  it in this model. -/
  | notModelled (mnemonic : String)
  deriving DecidableEq, Repr

/-- The block right after reset, before the boot load (10_state.md R41, 70_reset_and_hazards.md R241). ADDR, SHREG, CUR,
BITCNT, QCNT are unspecified there: 0 is a DESIGN CHOICE, unsafe (log 4). Storage lists nothing (log 6), the trace holds
the event of this reset (log 9), the environment is quiet (log 2). -/
def State.reset : State where
  addr := 0
  mask := 0
  cw := 0
  rep := 0
  deb := 0
  booted := false
  rfOut := false
  crit := false
  busy := false
  txs := .idle
  shreg := 0
  cur := false
  bitcnt := 0
  qcnt := 0
  nv := []
  trace := [.reset]
  wrQueue := []
  rdWaiting := 0
  env := []
  freeIdx := 0

end Sys2Proof.Machine
end

