-- ==== Sys2Proof/Machine/Flags.lean ====
section
/-! DEFINITION. The flags and levels that are functions of the state (10_state.md R26, R30, R36 to R39), and the mask
arithmetic of the socket commands (41_codeword_encoder.md R122). -/

namespace Sys2Proof.Machine

/-- PEND: a job is pending (10_state.md R26). -/
def pend (s : State) : Bool := decide (s.rep ≠ 0)

/-- SCHED (10_state.md R26). -/
def sched (s : State) : Sched :=
  if s.rep = 0 then .idle else if s.deb ≠ 0 then .debouncing else .transmitting

/-- BOOTED = 1 and busy = 0: the condition of WRITE, READ and TICK (10_state.md R36 to R38). -/
def ready (s : State) : Bool := s.booted && !s.busy

/-- The port wr_ready (10_state.md R36). -/
def wrReady (s : State) : Bool := ready s

/-- The port rd_ready (10_state.md R37). -/
def rdReady (s : State) : Bool := ready s

/-- The port addr_q (10_state.md R39, 40_pairing_store.md R115). -/
def addrQ (s : State) : Addr := s.addr

/-- The port mask_q (10_state.md R39). -/
def maskQ (s : State) : Mask := s.mask

/-- `1 << (n-1)` for socket n: its bit of MASK (10_state.md R22). -/
def socketBit (k : Socket) : Mask := 1 <<< (k.index - 1)

/-- `MASK | (1 << (n-1))` (43_command_decoder.md R163). -/
def maskWithOn (m : Mask) (k : Socket) : Mask := m ||| socketBit k

/-- `MASK & ~(1 << (n-1))` (43_command_decoder.md R164). -/
def maskWithOff (m : Mask) (k : Socket) : Mask := m &&& ~~~(socketBit k)

end Sys2Proof.Machine
end

