-- ==== Sys2Proof/Machine/Ops.lean ====
section
/-! DEFINITION. The named operations over storage and registers: the byte array (20_memory.md R60, R64), the updates of
the state, MemRead and MemWrite, Submit (43_command_decoder.md R167), PairingLoad and PairingSet (40_pairing_store.md
R110, R111), and the one trap-like event, RESET, with the boot load that follows it (60_exceptions.md R217, R218). -/

namespace Sys2Proof.Machine

/-! ## Storage as a byte array -/

/-- The canonical form: offsets strictly rising, no entry equal to what an unlisted byte reads as. -/
abbrev Memory.wf (m : Memory) : Prop :=
  m.Pairwise (fun c d => c.1 < d.1) ∧ ∀ c ∈ m, c.2 ≠ Config.erasedByte

/-- The byte at an offset; an unlisted byte reads as erased (log 6). -/
def Memory.read (m : Memory) (a : Nat) : Byte :=
  match m with
  | [] => Config.erasedByte
  | c :: rest => if a = c.1 then c.2 else Memory.read rest a

/-- Replace the byte at an offset, keeping the canonical form. -/
def Memory.write (m : Memory) (a : Nat) (b : Byte) : Memory :=
  match m with
  | [] => if b = Config.erasedByte then [] else [(a, b)]
  | c :: rest =>
    if a < c.1 then (if b = Config.erasedByte then c :: rest else (a, b) :: c :: rest)
    else if a = c.1 then (if b = Config.erasedByte then rest else (a, b) :: rest)
    else c :: Memory.write rest a b

/-- Bytes off .. off+n-1, lowest offset first (20_memory.md R64). -/
def Memory.readBytes (m : Memory) (off n : Nat) : List Byte :=
  (List.range n).map (fun k => Memory.read m (off + k))

/-- Replace bytes off .. off + length - 1 (20_memory.md R64). -/
def Memory.writeBytes (m : Memory) (off : Nat) (bs : List Byte) : Memory :=
  match bs with
  | [] => m
  | b :: rest => Memory.writeBytes (Memory.write m off b) (off + 1) rest

/-! ## The updates of the state -/

/-- `Emit(e)`: append an event to the trace (00_scope.md R9). -/
def emit (e : Event) (s : State) : State := { s with trace := s.trace ++ [e] }

/-- Append several events, in order. -/
def emitAll (es : List Event) (s : State) : State := { s with trace := s.trace ++ es }

/-- `ADDR <- a`, all 20 bits in one step (20_memory.md R70). -/
def setAddr (a : Addr) (s : State) : State := { s with addr := a }

/-- `MASK <- m`. -/
def setMask (m : Mask) (s : State) : State := { s with mask := m }

/-- `CW <- cw ; REP <- rep ; DEB <- deb`. -/
def setJob (cw : Codeword) (rep deb : Nat) (s : State) : State := { s with cw := cw, rep := rep, deb := deb }

/-- `BOOTED <- b`. -/
def setBooted (b : Bool) (s : State) : State := { s with booted := b }

/-- The three output levels. -/
def setOutputs (rfOut crit busy : Bool) (s : State) : State := { s with rfOut := rfOut, crit := crit, busy := busy }

/-- The five transmitter registers. -/
def setTx (txs : TxState) (shreg : Codeword) (cur : Bool) (bitcnt qcnt : Nat) (s : State) : State :=
  { s with txs := txs, shreg := shreg, cur := cur, bitcnt := bitcnt, qcnt := qcnt }

/-- The contents of storage. -/
def setNv (m : Memory) (s : State) : State := { s with nv := m }

/-- The host's side of the write and read ports. -/
def setHost (wrQueue : List Report) (rdWaiting : Nat) (s : State) : State :=
  { s with wrQueue := wrQueue, rdWaiting := rdWaiting }

/-- The environment's coming cycles. -/
def setEnv (env : List EnvCycle) (s : State) : State := { s with env := env }

/-- The number of the next free value. -/
def setFreeIdx (n : Nat) (s : State) : State := { s with freeIdx := n }

/-! ## Storage accesses -/

/-- The state after `MemRead(off, n)`: it changes nothing and emits NvRd (20_memory.md R64). The bytes read are
`Memory.readBytes s.nv off n`. -/
def memRead (off n : Nat) (s : State) : State := emit (.nvRd off n) s

/-- `MemWrite(off, n, bytes)`: it replaces exactly these bytes and emits NvWr (20_memory.md R64). -/
def memWrite (off : Nat) (bs : List Byte) (s : State) : State :=
  emit (.nvWr off bs) (setNv (Memory.writeBytes s.nv off bs) s)

/-- A write of one record cut by a reset: the access was issued, and the three bytes are whatever the medium left
(93_implementation_defined.md U22): free values (log 11). -/
def memWriteTorn (off : Nat) (bs : List Byte) (s : State) : State :=
  setFreeIdx (s.freeIdx + 3)
    (emit (.nvWr off bs)
      (setNv (Memory.writeBytes s.nv off
        [Config.freeNvByte s.freeIdx, Config.freeNvByte (s.freeIdx + 1), Config.freeNvByte (s.freeIdx + 2)]) s))

/-- The writes of one record to some of the offsets, in order, each complete before the next (20_memory.md R68). -/
def writeCopies (offs : List Nat) (bs : List Byte) (s : State) : State :=
  match offs with
  | [] => s
  | off :: rest => writeCopies rest bs (memWrite off bs s)

/-! ## The Pairing Store -/

/-- The address the three bytes at offset 0x00 stand for: DEFAULT_ADDR when erased, else the low 20 bits
(40_pairing_store.md R110). -/
def loadedAddr (m : Memory) : Addr :=
  if erasedRecord (Memory.readBytes m 0x00 Config.nvLen) then Config.defaultAddr
  else recordAddr (Memory.read m 0x00) (Memory.read m 0x01) (Memory.read m 0x02)

/-- PairingLoad() (40_pairing_store.md R110). -/
def pairingLoad (s : State) : State :=
  setAddr (loadedAddr s.nv) (memRead 0x00 Config.nvLen s)

/-- PairingSet(a): storage first, register last (40_pairing_store.md R111). -/
def pairingSet (a : Addr) (s : State) : State :=
  setAddr a (writeCopies Config.nvOffsets (recordOf a) s)

/-- PairingSet(a) cut by a reset (70_reset_and_hazards.md R251): ADDR is not reached. -/
def pairingSetCut (a : Addr) (c : Cut) (s : State) : State :=
  let done := writeCopies (Config.nvOffsets.take c.copies) (recordOf a) s
  if c.torn then
    match Config.nvOffsets.drop c.copies with
    | [] => done
    | off :: _ => memWriteTorn off (recordOf a) done
  else done

/-! ## The job -/

/-- Submit(cw, d): the three job registers replaced together (43_command_decoder.md R167). -/
def submit (cw : Codeword) (d : Nat) (s : State) : State := setJob cw Config.repeats d s

/-! ## RESET, the trap-like event, and what follows it -/

/-- How long the hold of transmitter state `txs` with current bit `cur` lasts, in quanta (42_rf_transmitter.md R141). -/
def holdQuanta (txs : TxState) (cur : Bool) : Nat :=
  match txs with
  | .idle => 0
  | .bitHi => if cur then 3 else 1
  | .bitLo => if cur then 1 else 3
  | .sync => 1
  | .gap => Config.gapQuanta

/-- The time the hold in progress has lasted, `us` µs after the last quantum boundary. -/
def holdElapsed (us : Nat) (s : State) : Nat :=
  (holdQuanta s.txs s.cur - s.qcnt) * Config.quantum + us

/-- The hold a reset cuts short, recorded "with the time it actually lasted" (42_rf_transmitter.md R143). -/
def recordCutHold (us : Nat) (s : State) : State :=
  if s.busy then emit (.rf s.rfOut (holdElapsed us s)) s else s

/-- Every register at the value of 10_state.md R41; those it leaves unspecified get a free value (log 5). -/
def resetRegisters (s : State) : State :=
  setFreeIdx (s.freeIdx + 1)
    (setAddr (Config.freeAddr s.freeIdx)
      (setTx .idle (Config.freeShreg s.freeIdx) (Config.freeCur s.freeIdx) (Config.freeBitcnt s.freeIdx).val
        (Config.freeQcnt s.freeIdx).val
        (setOutputs false false false
          (setBooted false
            (setJob 0 0 0
              (setMask 0 s))))))

/-- RESET, `us` µs after the last quantum boundary if a frame is in flight: what is in progress is abandoned, every
register takes its reset value, `Reset` is appended, storage is not touched (70_reset_and_hazards.md R241, 42_rf_transmitter.md
R143). It saves nothing and vectors nowhere (60_exceptions.md R217). -/
def enterReset (us : Nat) (s : State) : State :=
  emit .reset (resetRegisters (recordCutHold us s))

/-- Boot: PairingLoad(), then BOOTED <- 1 (70_reset_and_hazards.md R242). What follows a reset in place of a return
(60_exceptions.md R218). -/
def boot (s : State) : State := setBooted true (pairingLoad s)

end Sys2Proof.Machine
end

