-- ==== Sys2Proof/Machine/Encoder.lean ====
section
/-! DEFINITION. The Codeword Encoder, a pure function (41_codeword_encoder.md R120). -/

namespace Sys2Proof.Machine

/-- The command nibble: a table, "no computation shortcuts" (30_encoding.md R89, 41_codeword_encoder.md R120). -/
def nibbleOf : Action → Nibble
  | .allOn => 0xD
  | .allOff => 0xC
  | .on .s1 => 0xF
  | .on .s2 => 0x7
  | .on .s3 => 0xB
  | .on .s4 => 0x3
  | .off .s1 => 0xE
  | .off .s2 => 0x6
  | .off .s3 => 0xA
  | .off .s4 => 0x2

/-- Encode(address, action) = (zext_24(address) << 4) | zext_24(nibble) (41_codeword_encoder.md R120, 30_encoding.md R88). -/
def encodeCodeword (a : Addr) (act : Action) : Codeword :=
  (a.setWidth 24 <<< 4) ||| (nibbleOf act).setWidth 24

/-- The debounce value an action uses (43_command_decoder.md R170). -/
def debounceOf : Action → Nat
  | .allOn => Config.debounceOn
  | .allOff => Config.debounceOff
  | .on _ => Config.debounceOn
  | .off _ => Config.debounceOff

/-- Submit the job of an action on the address ADDR holds now (43_command_decoder.md R161 to R164). -/
def submitAction (act : Action) (s : State) : State :=
  submit (encodeCodeword s.addr act) (debounceOf act) s

end Sys2Proof.Machine
end

