-- ==== Sys2Proof/Machine/Pairing.lean ====
section
/-! DEFINITION. The commands that submit no job: SET_SERIAL (43_command_decoder.md R165) and IGNORED (R166). -/

namespace Sys2Proof.Machine

/-- SET_SERIAL(a): PairingSet(a), and nothing else (43_command_decoder.md R165, 90_conflicts.md C1). -/
def execSetSerial (a : Addr) (s : State) : Host.Outcome State Fault Refusal := .next (pairingSet a s)

/-- IGNORED: "no register, no NV byte, no output changes" (43_command_decoder.md R166). -/
def execIgnored (s : State) : Host.Outcome State Fault Refusal := .next s

end Sys2Proof.Machine
end

