-- ==== Sys2Proof/Machine/Sockets.lean ====
section
/-! DEFINITION. The socket commands: ALL_ON, ALL_OFF, ON n, OFF n (43_command_decoder.md R161 to R164). -/

namespace Sys2Proof.Machine

/-- ON(n): set bit n-1 of MASK, submit the job (43_command_decoder.md R163). -/
def socketOn (k : Socket) (s : State) : State :=
  submitAction (.on k) (setMask (maskWithOn s.mask k) s)

/-- OFF(n): clear bit n-1 of MASK, submit the job (43_command_decoder.md R164). -/
def socketOff (k : Socket) (s : State) : State :=
  submitAction (.off k) (setMask (maskWithOff s.mask k) s)

/-- ALL_ON (43_command_decoder.md R161). -/
def execAllOn (s : State) : Host.Outcome State Fault Refusal :=
  .next (submitAction .allOn (setMask 0b1111 s))

/-- ALL_OFF (43_command_decoder.md R162). -/
def execAllOff (s : State) : Host.Outcome State Fault Refusal :=
  .next (submitAction .allOff (setMask 0b0000 s))

/-- ON 1 (43_command_decoder.md R163). -/
def execOn1 (s : State) : Host.Outcome State Fault Refusal := .next (socketOn .s1 s)

/-- ON 2 (43_command_decoder.md R163). -/
def execOn2 (s : State) : Host.Outcome State Fault Refusal := .next (socketOn .s2 s)

/-- ON 3 (43_command_decoder.md R163). -/
def execOn3 (s : State) : Host.Outcome State Fault Refusal := .next (socketOn .s3 s)

/-- ON 4 (43_command_decoder.md R163). -/
def execOn4 (s : State) : Host.Outcome State Fault Refusal := .next (socketOn .s4 s)

/-- OFF 1 (43_command_decoder.md R164). -/
def execOff1 (s : State) : Host.Outcome State Fault Refusal := .next (socketOff .s1 s)

/-- OFF 2 (43_command_decoder.md R164). -/
def execOff2 (s : State) : Host.Outcome State Fault Refusal := .next (socketOff .s2 s)

/-- OFF 3 (43_command_decoder.md R164). -/
def execOff3 (s : State) : Host.Outcome State Fault Refusal := .next (socketOff .s3 s)

/-- OFF 4 (43_command_decoder.md R164). -/
def execOff4 (s : State) : Host.Outcome State Fault Refusal := .next (socketOff .s4 s)

end Sys2Proof.Machine
end

