-- ==== Sys2Proof/Machine/Dispatch.lean ====
section
/-! DEFINITION. One arm per row of spec/opcode_table.json. -/

namespace Sys2Proof.Machine

def exec (i : Instr) (s : State) : Host.Outcome State Fault Refusal :=
  match i with
  | .allOn => Sys2Proof.Machine.execAllOn s
  | .allOff => Sys2Proof.Machine.execAllOff s
  | .on1 => Sys2Proof.Machine.execOn1 s
  | .on2 => Sys2Proof.Machine.execOn2 s
  | .on3 => Sys2Proof.Machine.execOn3 s
  | .on4 => Sys2Proof.Machine.execOn4 s
  | .off1 => Sys2Proof.Machine.execOff1 s
  | .off2 => Sys2Proof.Machine.execOff2 s
  | .off3 => Sys2Proof.Machine.execOff3 s
  | .off4 => Sys2Proof.Machine.execOff4 s
  | .setSerial a => Sys2Proof.Machine.execSetSerial a s
  | .ignored => Sys2Proof.Machine.execIgnored s

end Sys2Proof.Machine
end

