-- ==== Sys2Proof/Machine/Readback.lean ====
section
/-! DEFINITION. READ (45_read_report.md R200). -/

namespace Sys2Proof.Machine

/-- The read report (30_encoding.md R93, 45_read_report.md R200). -/
def readReport (s : State) : Report where
  b0 := hexChar (addrNibble s.addr 4)
  b1 := hexChar (addrNibble s.addr 3)
  b2 := hexChar (addrNibble s.addr 2)
  b3 := hexChar (addrNibble s.addr 1)
  b4 := hexChar (addrNibble s.addr 0)
  b5 := 0x00
  b6 := 0x00
  b7 := s.mask.setWidth 8

/-- READ: nothing but the event (45_read_report.md R200, R202). Its `require` is the caller's. -/
def readOp (s : State) : State := emit (.rdData (readReport s)) s

end Sys2Proof.Machine
end

