-- ==== Sys2Proof/Machine/Transmitter.lean ====
section
/-! DEFINITION. The RF Transmitter, in both forms of 42_rf_transmitter.md: the operation that emits a list of timed
events (R131, R136) and the state machine stepped every 200 µs (R141). -/

namespace Sys2Proof.Machine

/-! ## The operation -/

/-- The symbol of one bit: high then low, long and short or short and long (30_encoding.md R91). -/
def symbol (b : Bool) : List Event :=
  if b then [.rf true Config.tLong, .rf false Config.tShort] else [.rf true Config.tShort, .rf false Config.tLong]

/-- The symbols of bits n-1 down to 0 of the codeword; a bit above 23 reads as 0 (42_rf_transmitter.md R131, R140). -/
def symbols (cw : Codeword) : Nat → List Event
  | 0 => []
  | n + 1 => symbol (cw.getLsbD n) ++ symbols cw n

/-- The events of Transmit(cw, n) in order (42_rf_transmitter.md R131). -/
def waveOf (cw : Codeword) (n : Nat) : List Event :=
  [.critOn] ++ symbols cw n ++ [.rf true Config.tSync, .critOff, .wdtKick, .rf false Config.tGap]

/-- Wave(cw), the event list of a frame (42_rf_transmitter.md R136). -/
def wave (cw : Codeword) : List Event := waveOf cw Config.txBits

/-- Transmit(cw, n) as one atomic step: its events, and rf_out, crit, busy all 0 on return (42_rf_transmitter.md R131).
Its `require busy = 0` is the caller's. -/
def transmit (cw : Codeword) (n : Nat) (s : State) : State :=
  setOutputs false false false (emitAll (waveOf cw n) s)

/-- The levels of one symbol, one a quantum (42_rf_transmitter.md R138). -/
def symbolLevels (b : Bool) : List Bool :=
  if b then [true, true, true, false] else [true, false, false, false]

/-- The levels of the symbols of bits n-1 down to 0. -/
def symbolsLevels (cw : Codeword) : Nat → List Bool
  | 0 => []
  | n + 1 => symbolLevels (cw.getLsbD n) ++ symbolsLevels cw n

/-- QSeq(cw): the 247 levels of a frame, one a quantum (42_rf_transmitter.md R138). -/
def qSeq (cw : Codeword) : List Bool :=
  symbolsLevels cw Config.txBits ++ [true] ++ List.replicate Config.gapQuanta false

/-! ## The state machine -/

/-- LoadBit() (42_rf_transmitter.md R141). -/
def loadBit (s : State) : State :=
  let b := s.shreg.getLsbD 23
  setOutputs true s.crit s.busy (setTx .bitHi (s.shreg <<< 1) b s.bitcnt (holdQuanta .bitHi b) s)

/-- FrameStart(cw) (42_rf_transmitter.md R141). -/
def frameStart (cw : Codeword) (s : State) : State :=
  loadBit (emit .critOn (setOutputs s.rfOut true true (setTx s.txs cw s.cur Config.txBits s.qcnt s)))

/-- FrameDone(), the rest of the TICK: REP <- REP - 1, and CW <- 0 if REP became 0 (44_scheduler.md R180, R184, R185). -/
def frameDone (s : State) : State :=
  setJob (if s.rep - 1 = 0 then 0 else s.cw) (s.rep - 1) s.deb s

/-- The `Rf` event of the hold that has just ended (42_rf_transmitter.md R142). -/
def emitHold (s : State) : State :=
  emit (.rf s.rfOut (holdQuanta s.txs s.cur * Config.quantum)) s

/-- What happens when QCNT has become 0 (42_rf_transmitter.md R141). TX_IDLE has no move (log 13). -/
def holdEnd (s : State) : State :=
  match s.txs with
  | .idle => s
  | .bitHi =>
    setOutputs false s.crit s.busy (setTx .bitLo s.shreg s.cur s.bitcnt (holdQuanta .bitLo s.cur) (emitHold s))
  | .bitLo =>
    let s' := setTx s.txs s.shreg s.cur (s.bitcnt - 1) s.qcnt (emitHold s)
    if s'.bitcnt ≠ 0 then loadBit s'
    else setOutputs true s.crit s.busy (setTx .sync s'.shreg s'.cur s'.bitcnt (holdQuanta .sync s'.cur) s')
  | .sync =>
    emit .wdtKick (emit .critOff
      (setOutputs false false s.busy (setTx .gap s.shreg s.cur s.bitcnt (holdQuanta .gap s.cur) (emitHold s))))
  | .gap =>
    frameDone (setOutputs s.rfOut s.crit false (setTx .idle s.shreg s.cur s.bitcnt s.qcnt (emitHold s)))

/-- QStep(), one quantum of 200 µs while busy = 1 (42_rf_transmitter.md R141). -/
def qStep (s : State) : State :=
  let s' := setTx s.txs s.shreg s.cur s.bitcnt (s.qcnt - 1) s
  if s'.qcnt = 0 then holdEnd s' else s'

end Sys2Proof.Machine
end

