-- ==== Sys2Proof/Machine/Scheduler.lean ====
section
/-! DEFINITION. The Transmission Scheduler's TICK (44_scheduler.md R180), with the transmitter started and left to run
(the refined form), and as one atomic operation. Their `require` is the caller's. -/

namespace Sys2Proof.Machine

/-- TICK up to and including FrameStart; the rest of a TICK that sends a frame is `frameDone`, 247 quanta later
(44_scheduler.md R180, 42_rf_transmitter.md R141). -/
def tickStart (s : State) : State :=
  let s' := emit .wdtKick s
  if s.rep = 0 then s'
  else if s.deb ≠ 0 then setJob s.cw s.rep (s.deb - 1) s'
  else frameStart s.cw s'

/-- TICK as one atomic operation (44_scheduler.md R180). -/
def tickWhole (s : State) : State :=
  let s' := emit .wdtKick s
  if s.rep = 0 then s'
  else if s.deb ≠ 0 then setJob s.cw s.rep (s.deb - 1) s'
  else frameDone (transmit s.cw Config.txBits s')

end Sys2Proof.Machine
end

