-- ==== Sys2Proof/Machine/Operations.lean ====
section
/-! DEFINITION. The block at the level of 00_scope.md R5: four operations, each atomic. The step of Machine/Step.lean is
the finer description; 42_rf_transmitter.md R142 ties the two. -/

namespace Sys2Proof.Machine

/-- WRITE(report) once it is accepted: the command, then Ack (43_command_decoder.md R160, log 16). -/
def writeOp (r : Report) (s : State) : Host.Outcome State Fault Refusal :=
  match exec (decode r) s with
  | .next t => .next (emit .ack t)
  | .fault f => .fault f
  | .refused e => .refused e

/-- RESET with the boot load that follows it (70_reset_and_hazards.md R241, R242). DESIGN CHOICE (log 10): from a state
inside a frame it falls at the last quantum boundary, 0 µs after it, so the cut hold may be recorded as 0 µs long; the spec
leaves the instant to the environment (42_rf_transmitter.md R143), and `step` takes it from the cycle instead. -/
def resetOp (s : State) : State := boot (enterReset 0 s)

/-- One operation; `none` where its `require` is false, "the operation has no step" (00_scope.md R9). -/
def runOp (o : Op) (s : State) : Option State :=
  match o with
  | .reset => some (resetOp s)
  | .write r =>
    if ready s then
      match writeOp r s with
      | .next t => some t
      | .fault _ => none
      | .refused _ => none
    else none
  | .read => if ready s then some (readOp s) else none
  | .tick => if ready s then some (tickWhole s) else none

/-- A sequence of operations, the single order of 20_memory.md R68. -/
def runOps (os : List Op) (s : State) : Option State :=
  match os with
  | [] => some s
  | o :: rest =>
    match runOp o s with
    | some t => runOps rest t
    | none => none

/-- A listing in the syntax of 30_encoding.md R96. -/
def runLines (ls : List Line) (s : State) : Option State := runOps (ls.flatMap Line.ops) s

end Sys2Proof.Machine
end

