-- ==== Sys2Proof/Machine/Ports.lean ====
section
/-! DEFINITION. One cycle of the ports (10_state.md R35 to R38, 60_exceptions.md R216): reset first; else the boot load;
else, in a frame, one quantum; else the accepted operation, a write before a read before a tick; else nothing. -/

namespace Sys2Proof.Machine

/-- The cycle the environment performs now; a quiet one when none is listed (log 2). -/
def currentCycle (s : State) : EnvCycle := s.env.headD EnvCycle.quiet

/-- The offers of the cycle join those the host already holds (10_state.md R36, R37). -/
def takeOffers (c : EnvCycle) (s : State) : State :=
  setEnv s.env.tail (setHost (s.wrQueue ++ c.wr.toList) (s.rdWaiting + c.rd.toNat) s)

/-- The SET_SERIAL a reset in this cycle cuts, if the block takes one now (70_reset_and_hazards.md R251, log 11). -/
def cutWrite (p : ResetPoint) (s : State) : State :=
  match p.cut, s.wrQueue with
  | some c, r :: rest =>
    if ready s then
      match decode r with
      | .setSerial a => pairingSetCut a c (setHost rest s.rdWaiting s)
      | _ => s
    else s
  | _, _ => s

/-- RESET in this cycle (60_exceptions.md R216: it "overrides everything"). -/
def resetCycle (p : ResetPoint) (s : State) : State := enterReset (p.us.val + 1) (cutWrite p s)

/-- The cycle of a block that is ready: write, then read, then tick (60_exceptions.md R216); a tick that loses the cycle
is dropped (10_state.md R38). -/
def acceptCycle (tick : Bool) (s : State) : Host.Outcome State Fault Refusal :=
  match s.wrQueue with
  | r :: rest => writeOp r (setHost rest s.rdWaiting s)
  | [] =>
    if s.rdWaiting ≠ 0 then .next (readOp (setHost [] (s.rdWaiting - 1) s))
    else if tick then .next (tickStart s)
    else .next s

/-- One cycle. -/
def runCycle (c : EnvCycle) (s : State) : Host.Outcome State Fault Refusal :=
  match c.rst with
  | some p => .next (resetCycle p s)
  | none =>
    if s.booted = false then .next (boot s)
    else if s.busy then .next (qStep s)
    else acceptCycle c.tick s

/-- The block made ready to take a report: booted if it is not, its transmitter idle (log 3). -/
def makeReady (s : State) : State :=
  let s' := if s.booted then s else boot s
  setOutputs false false false (setTx .idle s'.shreg s'.cur s'.bitcnt s'.qcnt s')

/-- A report on the wires of the write port, in a cycle in which nothing else happens. -/
def presentReport (r : Report) (s : State) : State :=
  setEnv (EnvCycle.quiet :: s.env) (setHost (r :: s.wrQueue) s.rdWaiting s)

/-- The report whose bits are `w`, the bits above `nbits` being 0 (30_encoding.md R80). -/
def reportOfBits (nbits w : Nat) : Report := Report.ofWord (BitVec.ofNat 64 (w % 2 ^ nbits))

end Sys2Proof.Machine
end

