-- ==== Sys2Proof/Machine/Step.lean ====
section
/-! DEFINITION. The step of the machine: one cycle of the environment (log 1), and how the host places a report (log 3). -/

namespace Sys2Proof.Machine

/-- One step: the environment's next cycle. -/
def step (s : State) : Host.Outcome State Fault Refusal :=
  runCycle (currentCycle s) (takeOffers (currentCycle s) s)

/-- The block ready, with the report of the bits `w` on its write port, so that the very next step runs it (log 3). -/
def State.withFetchWord (s : State) (nbits w : Nat) : State :=
  presentReport (reportOfBits nbits w) (makeReady s)

end Sys2Proof.Machine
end

