-- ==== Sys2Proof/Safety.lean ====
section
/-! DEFINITION. What counts as a legal state (10_state.md R27 with the transmitter's own consistency), and the words the
statements are written in: frames, effects, the levels and durations of a list of events. -/

namespace Sys2Proof.Machine

/-! ## Legal states -/

/-- The ten command nibbles; 0x0, 0x1, 0x4, 0x5, 0x8, 0x9 are none (30_encoding.md R89). -/
def commandNibbles : List Nibble := [0xD, 0xC, 0xF, 0x7, 0xB, 0x3, 0xE, 0x6, 0xA, 0x2]

/-- CW[3:0]. -/
def cwNibble (cw : Codeword) : Nibble := cw.extractLsb' 0 4

/-- CW[23:4]. -/
def cwAddr (cw : Codeword) : Addr := cw.extractLsb' 4 20

/-- The transmitter in the middle of the frame of CW (42_rf_transmitter.md R141): the levels belong to its state, the
hold is not over, and SHREG and CUR are what is left of CW after 24 - BITCNT whole symbols and the bit being sent. -/
structure FrameInv (s : State) : Prop where
  running : s.txs ≠ .idle
  level : s.rfOut = true ↔ (s.txs = .bitHi ∨ s.txs = .sync)
  window : s.crit = true ↔ s.txs ≠ .gap
  hold : 1 ≤ s.qcnt ∧ s.qcnt ≤ holdQuanta s.txs s.cur
  bits : (s.txs = .bitHi ∨ s.txs = .bitLo) →
    1 ≤ s.bitcnt ∧ s.bitcnt ≤ 24 ∧ s.shreg = s.cw <<< (25 - s.bitcnt) ∧ s.cur = s.cw.getLsbD (s.bitcnt - 1)
  after : (s.txs = .sync ∨ s.txs = .gap) → s.bitcnt = 0 ∧ s.shreg = 0 ∧ s.cur = s.cw.getLsbD 0

/-- The invariants I1 to I7 of 10_state.md R27 (I6 outside a frame), the transmitter's consistency during one, the ranges of
10_state.md R31, the state before the boot load (R41), and the canonical form of storage. -/
structure Inv (s : State) : Prop where
  repRange : s.rep ≤ Config.repeats
  debRange : s.deb ≤ Config.debMax
  idleCw : s.rep = 0 ↔ s.cw = 0
  idleDeb : s.rep = 0 → s.deb = 0
  jobNibble : s.rep ≠ 0 → cwNibble s.cw ∈ commandNibbles
  quiet : s.busy = false → s.crit = false ∧ s.rfOut = false ∧ s.txs = .idle
  critBusy : s.crit = true → s.busy = true
  frame : s.busy = true → s.booted = true ∧ s.rep ≠ 0 ∧ s.deb = 0 ∧ FrameInv s
  unbooted : s.booted = false → s.mask = 0 ∧ s.rep = 0 ∧ s.busy = false
  bitRange : s.bitcnt ≤ 24
  quantaRange : s.qcnt ≤ Config.gapQuanta
  storage : Memory.wf s.nv

/-! ## Frames and effects -/

/-- The flags, the output levels and the transmitter registers are the same. -/
def sameLevels (s t : State) : Prop :=
  t.booted = s.booted ∧ t.rfOut = s.rfOut ∧ t.crit = s.crit ∧ t.busy = s.busy ∧ t.txs = s.txs ∧ t.shreg = s.shreg ∧
    t.cur = s.cur ∧ t.bitcnt = s.bitcnt ∧ t.qcnt = s.qcnt

/-- The environment's side of the ports and the counter of free values are the same. -/
def samePorts (s t : State) : Prop :=
  t.wrQueue = s.wrQueue ∧ t.rdWaiting = s.rdWaiting ∧ t.env = s.env ∧ t.freeIdx = s.freeIdx

/-- CW, REP, DEB are the same. -/
def sameJob (s t : State) : Prop := t.cw = s.cw ∧ t.rep = s.rep ∧ t.deb = s.deb

/-- Every byte of storage reads as before. -/
def sameStorage (s t : State) : Prop := ∀ a : Nat, Memory.read t.nv a = Memory.read s.nv a

/-- The offset lies in the three bytes of the copy at `off` (20_memory.md R61, R62). -/
def inCopy (off a : Nat) : Prop := off ≤ a ∧ a < off + Config.nvLen

/-- What a socket command leaves unchanged: all but MASK, CW, REP, DEB (10_state.md R28). -/
def socketFrame (s t : State) : Prop :=
  t.addr = s.addr ∧ t.nv = s.nv ∧ sameStorage s t ∧ t.trace = s.trace ∧ sameLevels s t ∧ samePorts s t

/-- The job a command submits: codeword fields, REP and DEB (43_command_decoder.md R167, 30_encoding.md R88). -/
def submitted (s t : State) (n : Nibble) (d : Nat) : Prop :=
  cwAddr t.cw = s.addr ∧ cwNibble t.cw = n ∧ t.rep = 10 ∧ t.deb = d

/-- The effect of ON or OFF on one socket: its bit of MASK takes `level`, the others keep theirs, the job is submitted,
nothing else changes. -/
def socketEffect (s t : State) (bit : Nat) (level : Bool) (n : Nibble) (d : Nat) : Prop :=
  (∀ i, i < 4 → t.mask.getLsbD i = if i = bit then level else s.mask.getLsbD i) ∧ submitted s t n d ∧ socketFrame s t

/-- The instruction is one of the ten socket commands. -/
def isSocketCommand (i : Instr) : Prop := i.action ≠ none

/-! ## The step and the ports -/

/-- `k` steps. -/
def runFor (k : Nat) (s : State) : Host.Outcome State Fault Refusal :=
  match k with
  | 0 => .next s
  | k + 1 =>
    match step s with
    | .next t => runFor k t
    | .fault f => .fault f
    | .refused e => .refused e

/-- The reports on the write port in the current cycle. -/
def offeredReports (s : State) : List Report := s.wrQueue ++ (currentCycle s).wr.toList

/-- The state in which a report taken in this cycle is executed: the offers of the cycle taken in, the report off the
wires. -/
def acceptedState (s : State) (rest : List Report) : State :=
  { s with wrQueue := rest, rdWaiting := s.rdWaiting + (currentCycle s).rd.toNat, env := s.env.tail }

/-- The block takes report `r` in this step: no reset, ready, `r` first on the wires. -/
def takes (s : State) (r : Report) (rest : List Report) : Prop :=
  (currentCycle s).rst = none ∧ s.booted = true ∧ s.busy = false ∧ offeredReports s = r :: rest

/-- The reports offered in a list of cycles. -/
def reportsOf (es : List EnvCycle) : List Report := es.flatMap (fun c => c.wr.toList)

/-- The reads asked for in a list of cycles. -/
def readsOf (es : List EnvCycle) : Nat := (es.map (fun c => c.rd.toNat)).sum

/-- No reset in a list of cycles. -/
def noReset (es : List EnvCycle) : Prop := ∀ c ∈ es, c.rst = none

/-- A cycle whose only event is a tick strobe. -/
def tickCycle : EnvCycle := ⟨none, none, false, true⟩

/-- A cycle with a reset and nothing else. -/
def resetCycleAt (us : Fin 200) : EnvCycle := ⟨some ⟨us, none⟩, none, false, false⟩

/-- A ready block with nothing waiting on its ports and a job whose debounce is over: the next tick sends a frame. -/
def readyToSend (s : State) : Prop :=
  s.booted = true ∧ s.busy = false ∧ s.rep ≠ 0 ∧ s.deb = 0 ∧ s.wrQueue = [] ∧ s.rdWaiting = 0

/-! ## Levels and durations of events -/

/-- The duration of an `Rf` event; the others have none. -/
def Event.rfTime : Event → Option Nat
  | .rf _ us => some us
  | .ack => none
  | .rdData _ => none
  | .critOn => none
  | .critOff => none
  | .nvRd _ _ => none
  | .nvWr _ _ => none
  | .wdtKick => none
  | .reset => none

/-- The levels of rf_out over the holds of a list of events, one every `q` µs. -/
def levelsEvery (q : Nat) (es : List Event) : List Bool :=
  es.flatMap fun e =>
    match e with
    | .rf l us => List.replicate (us / q) l
    | .ack => []
    | .rdData _ => []
    | .critOn => []
    | .critOff => []
    | .nvRd _ _ => []
    | .nvWr _ _ => []
    | .wdtKick => []
    | .reset => []

/-- The durations of the `Rf` events, in order. -/
def durations (es : List Event) : List Nat := es.filterMap Event.rfTime

/-- How many of the 24 bits are 1. -/
def onesOf (cw : Codeword) : Nat := ((List.range 24).filter (fun i => cw.getLsbD i)).length

/-- How many frames were started in a list of events. -/
def framesIn (es : List Event) : Nat := es.count .critOn

/-! ## What was last commanded -/

/-- The level an action commands for bit `i` of MASK, if it commands that socket at all (10_state.md R22). -/
def commandsBit (i : Nat) : Action → Option Bool
  | .allOn => some true
  | .allOff => some false
  | .on k => if k.index = i + 1 then some true else none
  | .off k => if k.index = i + 1 then some false else none

/-- The level last commanded for bit `i` of MASK by a sequence of operations, starting from level `b`; a reset shows it
off (10_state.md R22, R41). -/
def lastCommanded (i : Nat) (os : List Op) (b : Bool) : Bool :=
  match os with
  | [] => b
  | .reset :: rest => lastCommanded i rest false
  | .write r :: rest => lastCommanded i rest (((decode r).action.bind (commandsBit i)).getD b)
  | .read :: rest => lastCommanded i rest b
  | .tick :: rest => lastCommanded i rest b

/-- The operation is no WRITE of a SET_SERIAL. -/
def notSetSerial : Op → Prop
  | .write r => ∀ a, decode r ≠ .setSerial a
  | .reset => True
  | .read => True
  | .tick => True

end Sys2Proof.Machine
end

