-- ==== Sys2Proof/Certificates/Slice0/Obligations.lean ====
section
/-! DEFINITION. The statements about the block, each from the rules of spec/ its docstring names. -/

open Sys2Proof Sys2Proof.Machine

/-! ## Encodings -/

/-- Reports written out byte by byte from the encodings of 30_encoding.md R82 to R87, and the commands they stand for
(95_test_vectors.md V-D1, V-D3). The words of the SET_SERIAL rows are `report[0]` in the low byte. -/
def Obligations.SampleReportsDecode : Prop :=
  decode ⟨0xFE, 0xFF, 0xFF, 0xFF, 0xFF, 0xFF, 0xFF, 0xFF⟩ = .allOn ∧
  decode ⟨0xFC, 0, 0, 0, 0, 0, 0, 0⟩ = .allOff ∧
  decode ⟨0xFF, 0x04, 0xAA, 0xBB, 0xCC, 0xDD, 0xEE, 0xFF⟩ = .on4 ∧
  decode ⟨0xFD, 0x03, 0, 0, 0, 0, 0, 0⟩ = .off3 ∧
  decode ⟨0xFA, 0x61, 0x62, 0x63, 0x64, 0x65, 0x99, 0x77⟩ = .setSerial 0xABCDE ∧
  decode ⟨0x7F, 0x02, 0, 0, 0, 0, 0, 0⟩ = .ignored ∧
  decodeTableWord 16 0x01FF = some .on1 ∧
  decodeTableWord 64 0x00003534333231FA = some (.setSerial 0x12345)

/-- The port word of a report: byte i at bits 8i+7 : 8i, nothing lost either way (30_encoding.md R80). -/
def Obligations.ReportWordLayout : Prop :=
  (∀ r : Report,
    r.word.extractLsb' 0 8 = r.b0 ∧ r.word.extractLsb' 8 8 = r.b1 ∧ r.word.extractLsb' 16 8 = r.b2 ∧
    r.word.extractLsb' 24 8 = r.b3 ∧ r.word.extractLsb' 32 8 = r.b4 ∧ r.word.extractLsb' 40 8 = r.b5 ∧
    r.word.extractLsb' 48 8 = r.b6 ∧ r.word.extractLsb' 56 8 = r.b7 ∧ Report.ofWord r.word = r) ∧
  ∀ w : Word64, (Report.ofWord w).word = w

/-- Decoding an encoded well-formed instruction gives it back, as a report and as a table word. The encoder's choice of the
unexamined bytes is the model's (log 14). -/
def Obligations.DecodeOfEncodeIsTheInstruction : Prop :=
  ∀ i : Instr, i.wf = true → decode (encode i) = i ∧ decodeTableWord 64 (encode i).word.toNat = some i

/-- When a report decodes to which command, for all of them (30_encoding.md R83). What parses is left to `parseAddr`; what
it accepts, and that a payload which does not parse makes the report IGNORED, are the spec's decision D11 (R84, R86). -/
def Obligations.EveryReportDecodesToOneCommand : Prop :=
  ∀ r : Report,
    (decode r = .allOn ↔ r.b0 = 0xFE) ∧
    (decode r = .allOff ↔ r.b0 = 0xFC) ∧
    (decode r = .on1 ↔ r.b0 = 0xFF ∧ r.b1 = 1) ∧
    (decode r = .on2 ↔ r.b0 = 0xFF ∧ r.b1 = 2) ∧
    (decode r = .on3 ↔ r.b0 = 0xFF ∧ r.b1 = 3) ∧
    (decode r = .on4 ↔ r.b0 = 0xFF ∧ r.b1 = 4) ∧
    (decode r = .off1 ↔ r.b0 = 0xFD ∧ r.b1 = 1) ∧
    (decode r = .off2 ↔ r.b0 = 0xFD ∧ r.b1 = 2) ∧
    (decode r = .off3 ↔ r.b0 = 0xFD ∧ r.b1 = 3) ∧
    (decode r = .off4 ↔ r.b0 = 0xFD ∧ r.b1 = 4) ∧
    (∀ a, decode r = .setSerial a ↔ r.b0 = 0xFA ∧ parseAddr r.b1 r.b2 r.b3 r.b4 r.b5 r.b6 r.b7 = some a) ∧
    (decode r = .ignored ↔
      (r.b0 ≠ 0xFE ∧ r.b0 ≠ 0xFC ∧ r.b0 ≠ 0xFF ∧ r.b0 ≠ 0xFD ∧ r.b0 ≠ 0xFA) ∨
      ((r.b0 = 0xFF ∨ r.b0 = 0xFD) ∧ (r.b1 = 0 ∨ 4 < r.b1)) ∨
      (r.b0 = 0xFA ∧ parseAddr r.b1 r.b2 r.b3 r.b4 r.b5 r.b6 r.b7 = none))

/-- The bytes a command does not use change nothing (30_encoding.md R81; for SET_SERIAL, `report[6]` and `report[7]`, R86). -/
def Obligations.UnexaminedBytesDoNotMatter : Prop :=
  ∀ r q : Report, r.b0 = q.b0 →
    ((r.b0 = 0xFE ∨ r.b0 = 0xFC) → decode r = decode q) ∧
    ((r.b0 = 0xFF ∨ r.b0 = 0xFD) → r.b1 = q.b1 → decode r = decode q) ∧
    (r.b0 = 0xFA → r.b1 = q.b1 → r.b2 = q.b2 → r.b3 = q.b3 → r.b4 = q.b4 → r.b5 = q.b5 → decode r = decode q)

/-- Five hex digits, most significant first, each in either case, make the address; anything else makes none. HexVal and
HexChar by their character codes; the two cases and the rejection are the spec's decision D11 (30_encoding.md R86, R87). -/
def Obligations.AddressPayloadParses : Prop :=
  (∀ c : Byte, (hexVal c).map BitVec.toNat =
    if 0x30 ≤ c.toNat ∧ c.toNat ≤ 0x39 then some (c.toNat - 0x30)
    else if 0x41 ≤ c.toNat ∧ c.toNat ≤ 0x46 then some (c.toNat - 0x41 + 10)
    else if 0x61 ≤ c.toNat ∧ c.toNat ≤ 0x66 then some (c.toNat - 0x61 + 10)
    else none) ∧
  (∀ v : Nibble, (hexChar v).toNat = (if v.toNat < 10 then 0x30 + v.toNat else 0x41 + v.toNat - 10) ∧
    hexVal (hexChar v) = some v) ∧
  ∀ (p0 p1 p2 p3 p4 p5 p6 : Byte),
    (∀ a : Addr, parseAddr p0 p1 p2 p3 p4 p5 p6 = some a ↔
      hexVal p0 = some (a.extractLsb' 16 4) ∧ hexVal p1 = some (a.extractLsb' 12 4) ∧
      hexVal p2 = some (a.extractLsb' 8 4) ∧ hexVal p3 = some (a.extractLsb' 4 4) ∧
      hexVal p4 = some (a.extractLsb' 0 4)) ∧
    (parseAddr p0 p1 p2 p3 p4 p5 p6 = none ↔
      hexVal p0 = none ∨ hexVal p1 = none ∨ hexVal p2 = none ∨ hexVal p3 = none ∨ hexVal p4 = none)

/-- The decoder is the opcode table read as 30_encoding.md R97 says, and the table's ten primary rows are pairwise disjoint. -/
def Obligations.DecoderAgreesWithOpcodeTable : Prop :=
  (∀ r : Report, decodeByTable r = decode r) ∧
  primaryInstrs.Pairwise fun i j => ∀ w : Word64, ¬ ((opcodeRow i).selects w = true ∧ (opcodeRow j).selects w = true)

/-! ## The codeword -/

/-- The codeword is (address << 4) | nibble, with the two fields of 30_encoding.md R88; the nibbles are the table of
30_encoding.md R89, and the six others are never produced. -/
def Obligations.CodewordIsAddressAndNibble : Prop :=
  (∀ (a : Addr) (act : Action),
    cwAddr (encodeCodeword a act) = a ∧ cwNibble (encodeCodeword a act) = nibbleOf act ∧
    (encodeCodeword a act).toNat = a.toNat * 16 + (nibbleOf act).toNat ∧
    ∀ n ∈ ([0x0, 0x1, 0x4, 0x5, 0x8, 0x9] : List Nibble), cwNibble (encodeCodeword a act) ≠ n) ∧
  nibbleOf .allOn = 0xD ∧ nibbleOf .allOff = 0xC ∧
  nibbleOf (.on .s1) = 0xF ∧ nibbleOf (.on .s2) = 0x7 ∧ nibbleOf (.on .s3) = 0xB ∧ nibbleOf (.on .s4) = 0x3 ∧
  nibbleOf (.off .s1) = 0xE ∧ nibbleOf (.off .s2) = 0x6 ∧ nibbleOf (.off .s3) = 0xA ∧ nibbleOf (.off .s4) = 0x2

/-- The encoder is injective, never produces one of the six unused nibbles, and never produces 0 (41_codeword_encoder.md
R123, 30_encoding.md R89, 10_state.md R27 I5). -/
def Obligations.EncoderIsInjective : Prop :=
  (∀ (a b : Addr) (x y : Action), encodeCodeword a x = encodeCodeword b y → a = b ∧ x = y) ∧
  ∀ (a : Addr) (x : Action), cwNibble (encodeCodeword a x) ∈ commandNibbles ∧ encodeCodeword a x ≠ 0

/-! ## The commands: result, frame, completion -/

/-- ALL_ON and ALL_OFF: the report, the mask, the job, and nothing else. That ALL_ON counts as ON and ALL_OFF as OFF for the
debounce is the spec's decision D7 (43_command_decoder.md R161, R162, R170). -/
def Obligations.AllOnAllOffResult : Prop :=
  (∀ r : Report, r.b0 = 0xFE → decode r = .allOn) ∧ (∀ r : Report, r.b0 = 0xFC → decode r = .allOff) ∧
  ∀ s : State,
    (∃ t, exec .allOn s = .next t ∧ (∀ i, i < 4 → t.mask.getLsbD i = true) ∧ submitted s t 0xD Config.debounceOn ∧
      socketFrame s t) ∧
    (∃ t, exec .allOff s = .next t ∧ (∀ i, i < 4 → t.mask.getLsbD i = false) ∧ submitted s t 0xC Config.debounceOff ∧
      socketFrame s t)

/-- ON n: its report, its mask bit set and the others kept, its job, and nothing else; an index outside 1..4 is IGNORED
(43_command_decoder.md R163). -/
def Obligations.OnResult : Prop :=
  (∀ r : Report, r.b0 = 0xFF →
    (r.b1 = 1 → decode r = .on1) ∧ (r.b1 = 2 → decode r = .on2) ∧ (r.b1 = 3 → decode r = .on3) ∧
    (r.b1 = 4 → decode r = .on4) ∧ (r.b1 = 0 ∨ 4 < r.b1 → decode r = .ignored)) ∧
  ∀ s : State,
    (∃ t, exec .on1 s = .next t ∧ socketEffect s t 0 true 0xF Config.debounceOn) ∧
    (∃ t, exec .on2 s = .next t ∧ socketEffect s t 1 true 0x7 Config.debounceOn) ∧
    (∃ t, exec .on3 s = .next t ∧ socketEffect s t 2 true 0xB Config.debounceOn) ∧
    (∃ t, exec .on4 s = .next t ∧ socketEffect s t 3 true 0x3 Config.debounceOn)

/-- OFF n: its report, its mask bit cleared and the others kept, its job, and nothing else; an index outside 1..4 is IGNORED
(43_command_decoder.md R164). -/
def Obligations.OffResult : Prop :=
  (∀ r : Report, r.b0 = 0xFD →
    (r.b1 = 1 → decode r = .off1) ∧ (r.b1 = 2 → decode r = .off2) ∧ (r.b1 = 3 → decode r = .off3) ∧
    (r.b1 = 4 → decode r = .off4) ∧ (r.b1 = 0 ∨ 4 < r.b1 → decode r = .ignored)) ∧
  ∀ s : State,
    (∃ t, exec .off1 s = .next t ∧ socketEffect s t 0 false 0xE Config.debounceOff) ∧
    (∃ t, exec .off2 s = .next t ∧ socketEffect s t 1 false 0x6 Config.debounceOff) ∧
    (∃ t, exec .off3 s = .next t ∧ socketEffect s t 2 false 0xA Config.debounceOff) ∧
    (∃ t, exec .off4 s = .next t ∧ socketEffect s t 3 false 0x2 Config.debounceOff)

/-- SET_SERIAL a: ADDR takes a; the three copies hold the record, lowest byte first; every byte outside them reads as
before; the three accesses are issued in order; mask, job, levels and ports are unchanged. The order of the writes and the
record's format are the spec's decision D13, that mask and job are untouched D10 (43_command_decoder.md R165,
40_pairing_store.md R111, 20_memory.md R61). -/
def Obligations.SetSerialResult : Prop :=
  ∀ (s : State) (a : Addr), Memory.wf s.nv →
    ∃ t, exec (.setSerial a) s = .next t ∧ t.addr = a ∧
      (∀ off, off ∈ Config.nvOffsets →
        Memory.read t.nv off = a.extractLsb' 0 8 ∧ Memory.read t.nv (off + 1) = a.extractLsb' 8 8 ∧
        (Memory.read t.nv (off + 2)).toNat = (a.extractLsb' 16 4).toNat) ∧
      (∀ x, (∀ off ∈ Config.nvOffsets, ¬ inCopy off x) → Memory.read t.nv x = Memory.read s.nv x) ∧
      Memory.wf t.nv ∧
      t.trace = s.trace ++ [.nvWr 0x00 (recordOf a), .nvWr 0x40 (recordOf a), .nvWr 0x80 (recordOf a)] ∧
      t.mask = s.mask ∧ sameJob s t ∧ sameLevels s t ∧ samePorts s t

/-- A report with an unknown opcode, or ON or OFF with an index outside 1..4, or SET_SERIAL with a payload that does not
parse, is IGNORED; IGNORED completes and changes nothing; the WRITE that carries it adds one Ack and nothing else, a
pending job included (43_command_decoder.md R166). That a payload which does not parse is IGNORED is the spec's decision
D11. -/
def Obligations.IgnoredChangesNothing : Prop :=
  (∀ s : State, ∃ t, exec .ignored s = .next t ∧ t = s) ∧
  (∀ r : Report, r.b0 ≠ 0xFE → r.b0 ≠ 0xFC → r.b0 ≠ 0xFF → r.b0 ≠ 0xFD → r.b0 ≠ 0xFA → decode r = .ignored) ∧
  (∀ r : Report, r.b0 = 0xFF ∨ r.b0 = 0xFD → r.b1 = 0 ∨ 4 < r.b1 → decode r = .ignored) ∧
  (∀ r : Report, r.b0 = 0xFA → parseAddr r.b1 r.b2 r.b3 r.b4 r.b5 r.b6 r.b7 = none → decode r = .ignored) ∧
  ∀ (s : State) (r : Report) (rest : List Report), takes s r rest → decode r = .ignored →
    step s = .next { acceptedState s rest with trace := s.trace ++ [.ack] }

/-- The same socket command twice with nothing between leaves what performing it once leaves (43_command_decoder.md R169,
which the spec derives). -/
def Obligations.RepeatedCommandIsIdempotent : Prop :=
  ∀ (i : Instr) (s t : State), isSocketCommand i → exec i s = .next t → exec i t = .next t

/-- The three job registers are replaced together, whatever they held: the outcome does not depend on the job in progress,
REP is REPEATS and not more, and SCHED is Debouncing or Transmitting according to the debounce (43_command_decoder.md
R167). -/
def Obligations.NewJobReplacesTheOld : Prop :=
  ∀ (i : Instr) (s : State) (cw : Codeword) (rep deb : Nat), isSocketCommand i →
    exec i (setJob cw rep deb s) = exec i s ∧
    ∃ t, exec i s = .next t ∧ t.rep = Config.repeats ∧
      sched t = (if t.deb = 0 then .transmitting else .debouncing)

/-- A SET_SERIAL with a job pending leaves the job on the old address, and the next socket command uses the new one
(20_memory.md R71, 70_reset_and_hazards.md R250). -/
def Obligations.NewAddressIsForLaterCommands : Prop :=
  ∀ (s t u : State) (a : Addr) (i : Instr), exec (.setSerial a) s = .next t → isSocketCommand i →
    exec i t = .next u →
    t.cw = s.cw ∧ t.rep = s.rep ∧ t.deb = s.deb ∧ t.mask = s.mask ∧ cwAddr u.cw = a

/-! ## WRITE -/

/-- The step that takes a report runs the decoded command in the state the ports leave, and adds Ack; placing a report
with `withFetchWord` makes the very next step take it. The placing is the model's own (log 3); Ack is of
43_command_decoder.md R160. -/
def Obligations.StepRunsTheReportOnThePort : Prop :=
  (∀ (s : State) (r : Report) (rest : List Report), takes s r rest →
    step s =
      match exec (decode r) (acceptedState s rest) with
      | .next t => .next { t with trace := t.trace ++ [.ack] }
      | .fault f => .fault f
      | .refused e => .refused e) ∧
  ∀ (s : State) (nbits w : Nat) (i : Instr), decodeTableWord nbits w = some i →
    (State.withFetchWord s nbits w).booted = true ∧ (State.withFetchWord s nbits w).busy = false ∧
    step (State.withFetchWord s nbits w) =
      match exec i (makeReady s) with
      | .next t => .next { t with trace := t.trace ++ [.ack] }
      | .fault f => .fault f
      | .refused e => .refused e

/-- Every WRITE completes: it is the decoded command, and it ends with Ack, whatever the report held; before the Ack it emits
nothing but the three storage writes of a SET_SERIAL, and never an `Rf` event (43_command_decoder.md R160). The order of the
three writes and the record in them are the spec's decision D13. -/
def Obligations.EveryWriteEndsWithAck : Prop :=
  ∀ (s : State) (r : Report) (rest : List Report), takes s r rest →
    ∃ t u es, step s = .next t ∧ exec (decode r) (acceptedState s rest) = .next u ∧
      t = { u with trace := u.trace ++ [.ack] } ∧
      t.trace = s.trace ++ es ++ [.ack] ∧ durations es = [] ∧ framesIn es = 0 ∧
      (es = [] ∨ ∃ a, decode r = .setSerial a ∧
        es = [.nvWr 0x00 (recordOf a), .nvWr 0x40 (recordOf a), .nvWr 0x80 (recordOf a)])

/-! ## The scheduler -/

/-- One TICK, whole: in Idle nothing, in Debouncing one decrement, in Transmitting one frame of CW and one decrement of
REP, CW cleared with the last; WdtKick first in each. At the ports, in a cycle with no reset, no report and no read: a tick
strobe that sends no frame makes the step the whole TICK (one that sends a frame is FrameRefinesAtomicTick's), and without a
strobe the step changes nothing but the environment. One action a tick is the spec's decision D8 (44_scheduler.md R180,
10_state.md R38). -/
def Obligations.TickDoesOneThing : Prop :=
  ∀ s : State, ready s = true →
    (s.rep = 0 → runOp .tick s = some { s with trace := s.trace ++ [.wdtKick] }) ∧
    (s.rep ≠ 0 → s.deb ≠ 0 →
      runOp .tick s = some { s with trace := s.trace ++ [.wdtKick], deb := s.deb - 1 }) ∧
    (s.rep ≠ 0 → s.deb = 0 →
      runOp .tick s = some { s with
        trace := s.trace ++ .wdtKick :: wave s.cw, rep := s.rep - 1, cw := if s.rep = 1 then 0 else s.cw,
        rfOut := false, crit := false, busy := false }) ∧
    ((currentCycle s).rst = none → offeredReports s = [] → s.rdWaiting + (currentCycle s).rd.toNat = 0 →
      ((currentCycle s).tick = true → s.rep = 0 ∨ s.deb ≠ 0 →
        ∃ u, runOp .tick s = some u ∧ step s = .next { u with env := s.env.tail }) ∧
      ((currentCycle s).tick = false → step s = .next { s with env := s.env.tail }))

/-- The moves of SCHED (44_scheduler.md R181, whose rows for a zero debounce rest on the spec's decision D9). -/
def Obligations.SchedulerMoves : Prop :=
  ∀ s t : State, ready s = true →
    (runOp .tick s = some t →
      (sched s = .idle → sched t = .idle) ∧
      (sched s = .debouncing → 1 < s.deb → sched t = .debouncing ∧ t.deb = s.deb - 1) ∧
      (sched s = .debouncing → s.deb = 1 → sched t = .transmitting ∧ t.deb = 0) ∧
      (sched s = .transmitting → 1 < s.rep → sched t = .transmitting ∧ t.rep = s.rep - 1) ∧
      (sched s = .transmitting → s.rep = 1 → sched t = .idle ∧ t.rep = 0 ∧ t.cw = 0)) ∧
    (∀ (r : Report) (act : Action), (decode r).action = some act → runOp (.write r) s = some t →
      sched t = (if debounceOf act = 0 then .transmitting else .debouncing)) ∧
    (∀ r : Report, (decode r).action = none → runOp (.write r) s = some t → sched t = sched s ∧ sameJob s t) ∧
    (runOp .read s = some t → sched t = sched s ∧ sameJob s t) ∧
    (runOp .reset s = some t → sched t = .idle)

/-- What one undisturbed command of debounce d produces in k ticks: nothing for d ticks, then ten frames of one codeword,
one a tick, then nothing; the number of frames is min(max(k - d, 0), 10); after d + 10 ticks the block is Idle
(44_scheduler.md R187, which the spec derives). -/
def Obligations.BurstOfOneCommand : Prop :=
  ∀ (s t : State) (i : Instr) (k : Nat), ready s = true → isSocketCommand i → exec i s = .next t →
    ∃ u, runOps (List.replicate k .tick) t = some u ∧
      u.trace = t.trace ++ (List.range k).flatMap (fun j =>
        if j < t.deb then [.wdtKick] else if j < t.deb + 10 then .wdtKick :: wave t.cw else [.wdtKick]) ∧
      framesIn u.trace = framesIn t.trace + min (k - t.deb) 10 ∧
      u.rep = 10 - min (k - t.deb) 10 ∧ u.deb = t.deb - k ∧ u.cw = (if k < t.deb + 10 then t.cw else 0) ∧
      u.mask = t.mask ∧ u.addr = t.addr ∧ (t.deb + 10 ≤ k → sched u = .idle)

/-- A host that keeps sending socket commands, the same or different ones, each followed by no more ticks than its own
debounce, keeps the block out of its first frame: no frame starts and no `Rf` event is emitted (44_scheduler.md R188). -/
def Obligations.RetriesPostponeTheFirstFrame : Prop :=
  ∀ (s : State) (rounds : List (Report × Nat)), ready s = true →
    (∀ p ∈ rounds, ∃ act, (decode p.1).action = some act ∧ p.2 ≤ debounceOf act) →
    ∃ u, runOps (rounds.flatMap (fun p => .write p.1 :: List.replicate p.2 .tick)) s = some u ∧
      framesIn u.trace = framesIn s.trace ∧ durations u.trace = durations s.trace

/-! ## The transmitter -/

/-- The event list of a frame: 53 events, 50 holds alternating from high, 49 400 µs in all, 19 400 µs to the end of the
sync pulse, high for 5 000 µs and 400 µs more for each 1 bit; the critical window is CritOn to CritOff, and the refresh
follows it at once (42_rf_transmitter.md R136, R137, which the spec derives; the place of WdtKick is its decision D17). -/
def Obligations.ShapeOfAFrame : Prop :=
  ∀ cw : Codeword,
    (wave cw).length = 53 ∧
    (∃ es, wave cw = .critOn :: es ++ [.critOff, .wdtKick, .rf false 30000] ∧ (durations es).sum = 19400 ∧
      es.length = 49 ∧ (∀ k, k < 49 → ∃ us, es[k]? = some (.rf (k % 2 == 0) us))) ∧
    (durations (wave cw)).length = 50 ∧ (durations (wave cw)).sum = 49400 ∧
    200 * (levelsEvery 200 (wave cw)).count true = 5000 + 400 * onesOf cw ∧
    ∀ k, k < 24 →
      (durations (wave cw))[2 * k]? = some (if cw.getLsbD (23 - k) then 600 else 200) ∧
      (durations (wave cw))[2 * k + 1]? = some (if cw.getLsbD (23 - k) then 200 else 600)

/-- The frame in quanta: the holds of the event list, one level each 200 µs, are the 247 levels of QSeq; rising edges are
800 µs apart whatever the codeword, falling edges carry the bits, most significant first; the sync pulse is the 97th level
(42_rf_transmitter.md R137, R138). -/
def Obligations.QuantaOfAFrame : Prop :=
  ∀ cw : Codeword,
    levelsEvery 200 (wave cw) = qSeq cw ∧ (qSeq cw).length = 247 ∧
    (∀ k, k < 24 →
      (qSeq cw)[4 * k]? = some true ∧ (qSeq cw)[4 * k + 1]? = some (cw.getLsbD (23 - k)) ∧
      (qSeq cw)[4 * k + 2]? = some (cw.getLsbD (23 - k)) ∧ (qSeq cw)[4 * k + 3]? = some false) ∧
    (qSeq cw)[96]? = some true ∧ ∀ j, 97 ≤ j → j < 247 → (qSeq cw)[j]? = some false

/-- The state machine agrees with the operation: a tick that sends a frame and the 247 quanta after it, whatever is offered
at the ports meanwhile short of a reset, end in the state of the atomic TICK, the transmitter's own registers apart, with
the offered writes and reads waiting and the strobes dropped (42_rf_transmitter.md R142, R139; 10_state.md R36, R38). -/
def Obligations.FrameRefinesAtomicTick : Prop :=
  ∀ (s : State) (es rest : List EnvCycle), readyToSend s → es.length = 247 → noReset es →
    s.env = tickCycle :: es ++ rest →
    ∃ t u, runFor 248 s = .next t ∧ runOp .tick s = some u ∧ t.txs = .idle ∧
      t = { u with
        txs := t.txs, shreg := t.shreg, cur := t.cur, bitcnt := t.bitcnt, qcnt := t.qcnt,
        wrQueue := reportsOf es, rdWaiting := readsOf es, env := rest }

/-- The levels during a frame: after FrameStart and j quanta rf_out is the j-th level of QSeq, crit is 1 for j below 97 and
0 after, busy is 1, the registers of the job are as they were (42_rf_transmitter.md R142). -/
def Obligations.LevelsDuringAFrame : Prop :=
  ∀ (s : State) (es rest : List EnvCycle) (j : Nat), readyToSend s → j < 247 → es.length = j → noReset es →
    s.env = tickCycle :: es ++ rest →
    ∃ t, runFor (j + 1) s = .next t ∧ (qSeq s.cw)[j]? = some t.rfOut ∧ t.crit = decide (j < 97) ∧ t.busy = true ∧
      t.cw = s.cw ∧ t.rep = s.rep ∧ t.deb = s.deb ∧ t.mask = s.mask ∧ t.addr = s.addr ∧ t.nv = s.nv

/-- While a frame is in flight a write and a read wait and a tick strobe is dropped: nothing is taken, the strobe changes
nothing, and no register a command uses changes but REP and CW at the frame's end (10_state.md R36 to R38). -/
def Obligations.BusyBlockTakesNothing : Prop :=
  ∀ s : State, s.booted = true → s.busy = true → (currentCycle s).rst = none →
    ∃ t, step s = .next t ∧ t.wrQueue = offeredReports s ∧ t.rdWaiting = s.rdWaiting + (currentCycle s).rd.toNat ∧
      t.addr = s.addr ∧ t.mask = s.mask ∧ t.nv = s.nv ∧ t.deb = s.deb ∧ t.booted = true ∧
      (t.busy = true → t.rep = s.rep ∧ t.cw = s.cw) ∧
      ∀ c : EnvCycle, c.rst = none → c.wr = (currentCycle s).wr → c.rd = (currentCycle s).rd →
        step (setEnv (c :: s.env.tail) s) = .next t

/-! ## READ and the order at the ports -/

/-- READ: the report shows ADDR as five upper-case hex characters and MASK in the low bits of the last byte, and nothing but
the event and the served request changes. The layout of bytes 5 to 7 and the case of the letters are the spec's decision
D12 (45_read_report.md R200, R202; 30_encoding.md R93). -/
def Obligations.ReadReportsAddressAndMask : Prop :=
  ∀ s : State, s.booted = true → s.busy = false → (currentCycle s).rst = none → offeredReports s = [] →
    s.rdWaiting + (currentCycle s).rd.toNat ≠ 0 →
    ∃ r, step s = .next { s with
        trace := s.trace ++ [.rdData r], env := s.env.tail,
        rdWaiting := s.rdWaiting + (currentCycle s).rd.toNat - 1 } ∧
      parseAddr r.b0 r.b1 r.b2 r.b3 r.b4 0 0 = some s.addr ∧
      (∀ c ∈ [r.b0, r.b1, r.b2, r.b3, r.b4], c.toNat < 0x61) ∧
      r.b5 = 0 ∧ r.b6 = 0 ∧ (∀ i, i < 4 → r.b7.getLsbD i = s.mask.getLsbD i) ∧ r.b7.toNat < 16

/-- A READ directly after a WRITE sees it, before any frame: after SET_SERIAL a the five characters parse to a, after any
other report to the address as it was; after a socket command the mask is the one it commanded, after any other report the
mask as it was (45_read_report.md R201, R202, 70_reset_and_hazards.md R255). The layout is the spec's decision D12. -/
def Obligations.ReadAfterWriteSeesIt : Prop :=
  ∀ (s t u : State) (r : Report), ready s = true → runOp (.write r) s = some t → runOp .read t = some u →
    ∃ q, u = { t with trace := t.trace ++ [.rdData q] } ∧
      (∀ a, decode r = .setSerial a → parseAddr q.b0 q.b1 q.b2 q.b3 q.b4 0 0 = some a) ∧
      ((∀ a, decode r ≠ .setSerial a) → parseAddr q.b0 q.b1 q.b2 q.b3 q.b4 0 0 = some s.addr) ∧
      (∀ act i, (decode r).action = some act → i < 4 →
        q.b7.getLsbD i = (commandsBit i act).getD (s.mask.getLsbD i)) ∧
      ((decode r).action = none → ∀ i, i < 4 → q.b7.getLsbD i = s.mask.getLsbD i)

/-- Offered in one cycle, a write is taken first, then the read, then the tick if it is still asserted; a strobe that loses
its cycle and is not asserted again is dropped. The order is the spec's decision D18 (60_exceptions.md R216). -/
def Obligations.SameCycleOrder : Prop :=
  ∀ (s : State) (r : Report) (lost again : Bool) (rest : List EnvCycle), ready s = true → s.wrQueue = [] →
    s.rdWaiting = 0 →
    s.env = ⟨none, some r, true, lost⟩ :: ⟨none, none, false, lost⟩ :: ⟨none, none, false, again⟩ :: rest →
    ∃ t1 t2 t3, runFor 1 s = .next t1 ∧ runFor 2 s = .next t2 ∧ runFor 3 s = .next t3 ∧
      writeOp r { s with rdWaiting := 1, env := s.env.tail } = .next t1 ∧
      t2 = readOp { t1 with rdWaiting := 0, env := s.env.tail.tail } ∧
      t3 = (if again then tickStart { t2 with env := rest } else { t2 with env := rest })

/-! ## RESET and boot -/

/-- RESET from any state, a frame or a SET_SERIAL included: every register the spec gives a reset value has it, no port is
ready, `Reset` is the last event (70_reset_and_hazards.md R241, 10_state.md R41). Nothing is said of ADDR, SHREG, CUR,
BITCNT, QCNT, which are unspecified. -/
def Obligations.ResetValues : Prop :=
  ∀ (s : State) (p : ResetPoint), (currentCycle s).rst = some p →
    ∃ t es, step s = .next t ∧ t.mask = 0 ∧ t.cw = 0 ∧ t.rep = 0 ∧ t.deb = 0 ∧ t.booted = false ∧ t.busy = false ∧
      t.crit = false ∧ t.rfOut = false ∧ t.txs = .idle ∧ sched t = .idle ∧ wrReady t = false ∧ rdReady t = false ∧
      t.trace = s.trace ++ es ++ [.reset] ∧ (p.cut = none → t.nv = s.nv)

/-- A block that is not booted only boots: the next step without a reset loads ADDR from copy 0 and sets BOOTED, takes no
report, serves no read and drops a tick (70_reset_and_hazards.md R242). -/
def Obligations.UnbootedBlockOnlyBoots : Prop :=
  ∀ s : State, s.booted = false → (currentCycle s).rst = none →
    ∃ a, step s = .next { s with
        addr := a, booted := true, trace := s.trace ++ [.nvRd 0 3], wrQueue := offeredReports s,
        rdWaiting := s.rdWaiting + (currentCycle s).rd.toNat, env := s.env.tail } ∧
      (Memory.read s.nv 0 = 0xFF → Memory.read s.nv 1 = 0xFF → Memory.read s.nv 2 = 0xFF → a = Config.defaultAddr) ∧
      (¬ (Memory.read s.nv 0 = 0xFF ∧ Memory.read s.nv 1 = 0xFF ∧ Memory.read s.nv 2 = 0xFF) →
        a.toNat = (Memory.read s.nv 0).toNat + 256 * (Memory.read s.nv 1).toNat +
          65536 * ((Memory.read s.nv 2).toNat % 16))

/-- RESET and the boot load after it are the one operation of 00_scope.md R5: two steps, a reset cycle and a quiet one, from
a state between operations, give what the atomic RESET gives, the first state any other operation sees
(70_reset_and_hazards.md R242). -/
def Obligations.ResetThenBootIsTheResetOperation : Prop :=
  ∀ (s : State) (us : Fin 200) (rest : List EnvCycle), s.busy = false →
    s.env = resetCycleAt us :: EnvCycle.quiet :: rest →
    ∃ t u, runFor 2 s = .next t ∧ runOp .reset s = some u ∧ t = { u with env := rest } ∧
      t.addr = loadedAddr s.nv ∧ t.mask = 0 ∧ t.cw = 0 ∧ t.rep = 0 ∧ t.deb = 0 ∧ t.booted = true ∧ t.busy = false ∧
      t.crit = false ∧ t.rfOut = false ∧ t.nv = s.nv ∧ t.trace = s.trace ++ [.reset, .nvRd 0 3]

/-- The load reads copy 0 and nothing else: two arrays that agree on offsets 0, 1, 2 load the same address; and the record
of an address is never all-ones and loads back as it (40_pairing_store.md R110, R113; 20_memory.md R61, R63). -/
def Obligations.LoadReadsCopyZeroOnly : Prop :=
  (∀ m n : Memory, (∀ x, x < 3 → Memory.read m x = Memory.read n x) → loadedAddr m = loadedAddr n) ∧
  (∀ a : Addr, erasedRecord (recordOf a) = false) ∧
  ∀ (m : Memory) (a : Addr), Memory.wf m → loadedAddr (Memory.writeBytes m 0 (recordOf a)) = a

/-- A reset in a frame cuts it: j quanta and us + 1 µs after FrameStart the recorded holds are exactly that much of the
frame, rf_out, crit and busy are 0 at once, no sync pulse or gap follows. The instant in whole microseconds is the model's
(log 10), the truncation the spec's decision D22 (42_rf_transmitter.md R143). -/
def Obligations.ResetCutsTheFrame : Prop :=
  ∀ (s : State) (es rest : List EnvCycle) (us : Fin 200), readyToSend s → es.length < 247 → noReset es →
    s.env = tickCycle :: es ++ resetCycleAt us :: rest →
    ∃ t fs, runFor (es.length + 2) s = .next t ∧ t.rfOut = false ∧ t.crit = false ∧ t.busy = false ∧ t.txs = .idle ∧
      t.rep = 0 ∧ t.cw = 0 ∧ t.trace = s.trace ++ [.wdtKick] ++ fs ++ [.reset] ∧
      (durations fs).sum = 200 * es.length + (us.val + 1) ∧
      levelsEvery 1 fs = (levelsEvery 1 (wave s.cw)).take (200 * es.length + (us.val + 1))

/-- A reset during SET_SERIAL, held on the port before or offered in the reset cycle itself: with one copy or more complete
the next boot loads the new address although ADDR was never updated; with none begun it loads what copy 0 held; the copies
written so far hold the new record, those not begun the old bytes, and every other byte reads as before
(70_reset_and_hazards.md R251; 93_implementation_defined.md U22). That copy 0 is the one loaded, and the order of the writes,
are the spec's decision D13. A torn copy is left free, and that the cut report is consumed, so that the port holds `rest`, is
the model's choice (log 11). -/
def Obligations.ResetDuringSetSerial : Prop :=
  ∀ (s : State) (r : Report) (rest : List Report) (a : Addr) (us : Fin 200) (c : Cut) (w : Option Report) (rd tick : Bool)
    (later : List EnvCycle),
    Memory.wf s.nv → ready s = true → s.env = ⟨some ⟨us, some c⟩, w, rd, tick⟩ :: EnvCycle.quiet :: later →
    offeredReports s = r :: rest → decode r = .setSerial a →
    ∃ t u, step s = .next t ∧ step t = .next u ∧ t.wrQueue = rest ∧ Memory.wf t.nv ∧
      (1 ≤ c.copies.val → u.addr = a) ∧
      (c.copies.val = 0 → c.torn = false → u.addr = loadedAddr s.nv ∧ t.nv = s.nv) ∧
      (∀ k, k < 3 → k < c.copies.val →
        Memory.readBytes t.nv (0x40 * k) 3 = recordOf a) ∧
      (∀ k, k < 3 → c.copies.val ≤ k → (c.torn = true → c.copies.val < k) →
        Memory.readBytes t.nv (0x40 * k) 3 = Memory.readBytes s.nv (0x40 * k) 3) ∧
      ∀ x, (∀ off ∈ Config.nvOffsets, ¬ inCopy off x) → Memory.read t.nv x = Memory.read s.nv x

/-- Round trip: after SET_SERIAL a, any operations that are no other SET_SERIAL, resets among them, and a reset, ADDR is a
(40_pairing_store.md R114, which the spec derives; the medium keeps its bytes, log 17). -/
def Obligations.AddressSurvivesPowerCycle : Prop :=
  ∀ (s : State) (r : Report) (a : Addr) (os : List Op), ready s = true → Memory.wf s.nv → decode r = .setSerial a →
    (∀ o ∈ os, notSetSerial o) →
    ∃ t, runOps (.write r :: os ++ [.reset]) s = some t ∧ t.addr = a ∧ t.mask = 0

/-! ## Rules of the whole machine -/

/-- The invariants hold right after reset (10_state.md R27, R41). -/
def Obligations.InvariantAtReset : Prop := Inv State.reset

/-- Every step keeps the invariants: from every legal state, not only from those a run reaches (10_state.md R27). -/
def Obligations.EveryStepKeepsInvariant : Prop :=
  ∀ s t : State, Inv s → step s = .next t → Inv t

/-- The four operations keep the invariants, end between frames, and always have a step when their condition holds; when
the block is not ready only RESET has one (00_scope.md R5, R9; 10_state.md R27). -/
def Obligations.OperationsKeepInvariant : Prop :=
  (∀ (o : Op) (s : State), Inv s → ready s = true → ∃ t, runOp o s = some t ∧ Inv t ∧ ready t = true) ∧
  (∀ s : State, ∃ t, runOp .reset s = some t ∧ ready t = true) ∧
  ∀ (o : Op) (s : State), ready s = false → o ≠ .reset → runOp o s = none

/-- There is no exception model: every step, every command and every operation that starts has a next state, for every
report; a report that is IGNORED is acknowledged and changes nothing (60_exceptions.md R210). -/
def Obligations.EveryStepAnswersNext : Prop :=
  (∀ s : State, ∃ t, step s = .next t) ∧
  (∀ (i : Instr) (s : State), ∃ t, exec i s = .next t) ∧
  (∀ (o : Op) (s : State), ready s = true → ∃ t, runOp o s = some t) ∧
  ∀ (s : State) (r : Report) (rest : List Report), takes s r rest → decode r = .ignored →
    step s = .next { acceptedState s rest with trace := s.trace ++ [.ack] }

/-- Only ALL_ON, ALL_OFF, ON, OFF and a reset change MASK (10_state.md R22). -/
def Obligations.OnlySocketCommandsChangeMask : Prop :=
  ∀ s t : State, step s = .next t → t.mask ≠ s.mask →
    (∃ p, (currentCycle s).rst = some p) ∨ ∃ r rest, takes s r rest ∧ isSocketCommand (decode r)

/-- Only the boot load, SET_SERIAL and a reset change ADDR, and SET_SERIAL replaces all of it by its operand
(10_state.md R21, 20_memory.md R70). -/
def Obligations.OnlyBootAndSetSerialChangeAddr : Prop :=
  ∀ s t : State, step s = .next t → t.addr ≠ s.addr →
    (∃ p, (currentCycle s).rst = some p) ∨ s.booted = false ∨
      ∃ r rest a, takes s r rest ∧ decode r = .setSerial a ∧ t.addr = a

/-- Storage changes only in the nine bytes of the three copies, and only by SET_SERIAL, whole or cut by a reset
(20_memory.md R62, R67). -/
def Obligations.OnlyTheNineBytesChange : Prop :=
  ∀ s t : State, step s = .next t →
    (∀ x, (∀ off ∈ Config.nvOffsets, ¬ inCopy off x) → Memory.read t.nv x = Memory.read s.nv x) ∧
    (t.nv ≠ s.nv → ∃ r rest a, offeredReports s = r :: rest ∧ decode r = .setSerial a ∧ ready s = true)

/-- The trace only grows, `Rf` events come only from a frame in flight, and a frame starts only by a tick with a pending job
whose debounce is over (00_scope.md R10; 44_scheduler.md R180; 42_rf_transmitter.md R145). -/
def Obligations.EventsOnlyFromTheirCauses : Prop :=
  ∀ s t : State, step s = .next t →
    ∃ es, t.trace = s.trace ++ es ∧
      (s.busy = false → durations es = []) ∧
      (framesIn es ≠ 0 → ready s = true ∧ (currentCycle s).tick = true ∧ (currentCycle s).rst = none ∧ s.rep ≠ 0 ∧
        s.deb = 0 ∧ offeredReports s = [] ∧ s.rdWaiting = 0 ∧ t.busy = true)

/-- MASK bit i is set exactly when socket i+1 was last commanded on, over any sequence of operations
(10_state.md R22; that a reset shows all sockets off is the spec's decision D14). -/
def Obligations.MaskShowsLastCommanded : Prop :=
  ∀ (os : List Op) (s t : State) (i : Nat), i < 4 → runOps os s = some t →
    t.mask.getLsbD i = lastCommanded i os (s.mask.getLsbD i)
end

