-- ==== Sys2Proof/Laws/State.lean ====
section
/-! SUPPORT. One lemma per field per update of the state (Machine/Ops.lean), each true by unfolding the one update. -/

namespace Sys2Proof.Machine

variable (s : State)

/-! ## emit -/

@[simp] theorem emit_addr (e : Event) : (emit e s).addr = s.addr := rfl
@[simp] theorem emit_mask (e : Event) : (emit e s).mask = s.mask := rfl
@[simp] theorem emit_cw (e : Event) : (emit e s).cw = s.cw := rfl
@[simp] theorem emit_rep (e : Event) : (emit e s).rep = s.rep := rfl
@[simp] theorem emit_deb (e : Event) : (emit e s).deb = s.deb := rfl
@[simp] theorem emit_booted (e : Event) : (emit e s).booted = s.booted := rfl
@[simp] theorem emit_rfOut (e : Event) : (emit e s).rfOut = s.rfOut := rfl
@[simp] theorem emit_crit (e : Event) : (emit e s).crit = s.crit := rfl
@[simp] theorem emit_busy (e : Event) : (emit e s).busy = s.busy := rfl
@[simp] theorem emit_txs (e : Event) : (emit e s).txs = s.txs := rfl
@[simp] theorem emit_shreg (e : Event) : (emit e s).shreg = s.shreg := rfl
@[simp] theorem emit_cur (e : Event) : (emit e s).cur = s.cur := rfl
@[simp] theorem emit_bitcnt (e : Event) : (emit e s).bitcnt = s.bitcnt := rfl
@[simp] theorem emit_qcnt (e : Event) : (emit e s).qcnt = s.qcnt := rfl
@[simp] theorem emit_nv (e : Event) : (emit e s).nv = s.nv := rfl
@[simp] theorem emit_trace (e : Event) : (emit e s).trace = s.trace ++ [e] := rfl
@[simp] theorem emit_wrQueue (e : Event) : (emit e s).wrQueue = s.wrQueue := rfl
@[simp] theorem emit_rdWaiting (e : Event) : (emit e s).rdWaiting = s.rdWaiting := rfl
@[simp] theorem emit_env (e : Event) : (emit e s).env = s.env := rfl
@[simp] theorem emit_freeIdx (e : Event) : (emit e s).freeIdx = s.freeIdx := rfl

/-! ## emitAll -/

@[simp] theorem emitAll_addr (es : List Event) : (emitAll es s).addr = s.addr := rfl
@[simp] theorem emitAll_mask (es : List Event) : (emitAll es s).mask = s.mask := rfl
@[simp] theorem emitAll_cw (es : List Event) : (emitAll es s).cw = s.cw := rfl
@[simp] theorem emitAll_rep (es : List Event) : (emitAll es s).rep = s.rep := rfl
@[simp] theorem emitAll_deb (es : List Event) : (emitAll es s).deb = s.deb := rfl
@[simp] theorem emitAll_booted (es : List Event) : (emitAll es s).booted = s.booted := rfl
@[simp] theorem emitAll_rfOut (es : List Event) : (emitAll es s).rfOut = s.rfOut := rfl
@[simp] theorem emitAll_crit (es : List Event) : (emitAll es s).crit = s.crit := rfl
@[simp] theorem emitAll_busy (es : List Event) : (emitAll es s).busy = s.busy := rfl
@[simp] theorem emitAll_txs (es : List Event) : (emitAll es s).txs = s.txs := rfl
@[simp] theorem emitAll_shreg (es : List Event) : (emitAll es s).shreg = s.shreg := rfl
@[simp] theorem emitAll_cur (es : List Event) : (emitAll es s).cur = s.cur := rfl
@[simp] theorem emitAll_bitcnt (es : List Event) : (emitAll es s).bitcnt = s.bitcnt := rfl
@[simp] theorem emitAll_qcnt (es : List Event) : (emitAll es s).qcnt = s.qcnt := rfl
@[simp] theorem emitAll_nv (es : List Event) : (emitAll es s).nv = s.nv := rfl
@[simp] theorem emitAll_trace (es : List Event) : (emitAll es s).trace = s.trace ++ es := rfl
@[simp] theorem emitAll_wrQueue (es : List Event) : (emitAll es s).wrQueue = s.wrQueue := rfl
@[simp] theorem emitAll_rdWaiting (es : List Event) : (emitAll es s).rdWaiting = s.rdWaiting := rfl
@[simp] theorem emitAll_env (es : List Event) : (emitAll es s).env = s.env := rfl
@[simp] theorem emitAll_freeIdx (es : List Event) : (emitAll es s).freeIdx = s.freeIdx := rfl

/-! ## setAddr -/

@[simp] theorem setAddr_addr (a : Addr) : (setAddr a s).addr = a := rfl
@[simp] theorem setAddr_mask (a : Addr) : (setAddr a s).mask = s.mask := rfl
@[simp] theorem setAddr_cw (a : Addr) : (setAddr a s).cw = s.cw := rfl
@[simp] theorem setAddr_rep (a : Addr) : (setAddr a s).rep = s.rep := rfl
@[simp] theorem setAddr_deb (a : Addr) : (setAddr a s).deb = s.deb := rfl
@[simp] theorem setAddr_booted (a : Addr) : (setAddr a s).booted = s.booted := rfl
@[simp] theorem setAddr_rfOut (a : Addr) : (setAddr a s).rfOut = s.rfOut := rfl
@[simp] theorem setAddr_crit (a : Addr) : (setAddr a s).crit = s.crit := rfl
@[simp] theorem setAddr_busy (a : Addr) : (setAddr a s).busy = s.busy := rfl
@[simp] theorem setAddr_txs (a : Addr) : (setAddr a s).txs = s.txs := rfl
@[simp] theorem setAddr_shreg (a : Addr) : (setAddr a s).shreg = s.shreg := rfl
@[simp] theorem setAddr_cur (a : Addr) : (setAddr a s).cur = s.cur := rfl
@[simp] theorem setAddr_bitcnt (a : Addr) : (setAddr a s).bitcnt = s.bitcnt := rfl
@[simp] theorem setAddr_qcnt (a : Addr) : (setAddr a s).qcnt = s.qcnt := rfl
@[simp] theorem setAddr_nv (a : Addr) : (setAddr a s).nv = s.nv := rfl
@[simp] theorem setAddr_trace (a : Addr) : (setAddr a s).trace = s.trace := rfl
@[simp] theorem setAddr_wrQueue (a : Addr) : (setAddr a s).wrQueue = s.wrQueue := rfl
@[simp] theorem setAddr_rdWaiting (a : Addr) : (setAddr a s).rdWaiting = s.rdWaiting := rfl
@[simp] theorem setAddr_env (a : Addr) : (setAddr a s).env = s.env := rfl
@[simp] theorem setAddr_freeIdx (a : Addr) : (setAddr a s).freeIdx = s.freeIdx := rfl

/-! ## setMask -/

@[simp] theorem setMask_addr (m : Mask) : (setMask m s).addr = s.addr := rfl
@[simp] theorem setMask_mask (m : Mask) : (setMask m s).mask = m := rfl
@[simp] theorem setMask_cw (m : Mask) : (setMask m s).cw = s.cw := rfl
@[simp] theorem setMask_rep (m : Mask) : (setMask m s).rep = s.rep := rfl
@[simp] theorem setMask_deb (m : Mask) : (setMask m s).deb = s.deb := rfl
@[simp] theorem setMask_booted (m : Mask) : (setMask m s).booted = s.booted := rfl
@[simp] theorem setMask_rfOut (m : Mask) : (setMask m s).rfOut = s.rfOut := rfl
@[simp] theorem setMask_crit (m : Mask) : (setMask m s).crit = s.crit := rfl
@[simp] theorem setMask_busy (m : Mask) : (setMask m s).busy = s.busy := rfl
@[simp] theorem setMask_txs (m : Mask) : (setMask m s).txs = s.txs := rfl
@[simp] theorem setMask_shreg (m : Mask) : (setMask m s).shreg = s.shreg := rfl
@[simp] theorem setMask_cur (m : Mask) : (setMask m s).cur = s.cur := rfl
@[simp] theorem setMask_bitcnt (m : Mask) : (setMask m s).bitcnt = s.bitcnt := rfl
@[simp] theorem setMask_qcnt (m : Mask) : (setMask m s).qcnt = s.qcnt := rfl
@[simp] theorem setMask_nv (m : Mask) : (setMask m s).nv = s.nv := rfl
@[simp] theorem setMask_trace (m : Mask) : (setMask m s).trace = s.trace := rfl
@[simp] theorem setMask_wrQueue (m : Mask) : (setMask m s).wrQueue = s.wrQueue := rfl
@[simp] theorem setMask_rdWaiting (m : Mask) : (setMask m s).rdWaiting = s.rdWaiting := rfl
@[simp] theorem setMask_env (m : Mask) : (setMask m s).env = s.env := rfl
@[simp] theorem setMask_freeIdx (m : Mask) : (setMask m s).freeIdx = s.freeIdx := rfl

/-! ## setJob -/

@[simp] theorem setJob_addr (cw : Codeword) (r d : Nat) : (setJob cw r d s).addr = s.addr := rfl
@[simp] theorem setJob_mask (cw : Codeword) (r d : Nat) : (setJob cw r d s).mask = s.mask := rfl
@[simp] theorem setJob_cw (cw : Codeword) (r d : Nat) : (setJob cw r d s).cw = cw := rfl
@[simp] theorem setJob_rep (cw : Codeword) (r d : Nat) : (setJob cw r d s).rep = r := rfl
@[simp] theorem setJob_deb (cw : Codeword) (r d : Nat) : (setJob cw r d s).deb = d := rfl
@[simp] theorem setJob_booted (cw : Codeword) (r d : Nat) : (setJob cw r d s).booted = s.booted := rfl
@[simp] theorem setJob_rfOut (cw : Codeword) (r d : Nat) : (setJob cw r d s).rfOut = s.rfOut := rfl
@[simp] theorem setJob_crit (cw : Codeword) (r d : Nat) : (setJob cw r d s).crit = s.crit := rfl
@[simp] theorem setJob_busy (cw : Codeword) (r d : Nat) : (setJob cw r d s).busy = s.busy := rfl
@[simp] theorem setJob_txs (cw : Codeword) (r d : Nat) : (setJob cw r d s).txs = s.txs := rfl
@[simp] theorem setJob_shreg (cw : Codeword) (r d : Nat) : (setJob cw r d s).shreg = s.shreg := rfl
@[simp] theorem setJob_cur (cw : Codeword) (r d : Nat) : (setJob cw r d s).cur = s.cur := rfl
@[simp] theorem setJob_bitcnt (cw : Codeword) (r d : Nat) : (setJob cw r d s).bitcnt = s.bitcnt := rfl
@[simp] theorem setJob_qcnt (cw : Codeword) (r d : Nat) : (setJob cw r d s).qcnt = s.qcnt := rfl
@[simp] theorem setJob_nv (cw : Codeword) (r d : Nat) : (setJob cw r d s).nv = s.nv := rfl
@[simp] theorem setJob_trace (cw : Codeword) (r d : Nat) : (setJob cw r d s).trace = s.trace := rfl
@[simp] theorem setJob_wrQueue (cw : Codeword) (r d : Nat) : (setJob cw r d s).wrQueue = s.wrQueue := rfl
@[simp] theorem setJob_rdWaiting (cw : Codeword) (r d : Nat) : (setJob cw r d s).rdWaiting = s.rdWaiting := rfl
@[simp] theorem setJob_env (cw : Codeword) (r d : Nat) : (setJob cw r d s).env = s.env := rfl
@[simp] theorem setJob_freeIdx (cw : Codeword) (r d : Nat) : (setJob cw r d s).freeIdx = s.freeIdx := rfl

/-! ## setBooted -/

@[simp] theorem setBooted_addr (b : Bool) : (setBooted b s).addr = s.addr := rfl
@[simp] theorem setBooted_mask (b : Bool) : (setBooted b s).mask = s.mask := rfl
@[simp] theorem setBooted_cw (b : Bool) : (setBooted b s).cw = s.cw := rfl
@[simp] theorem setBooted_rep (b : Bool) : (setBooted b s).rep = s.rep := rfl
@[simp] theorem setBooted_deb (b : Bool) : (setBooted b s).deb = s.deb := rfl
@[simp] theorem setBooted_booted (b : Bool) : (setBooted b s).booted = b := rfl
@[simp] theorem setBooted_rfOut (b : Bool) : (setBooted b s).rfOut = s.rfOut := rfl
@[simp] theorem setBooted_crit (b : Bool) : (setBooted b s).crit = s.crit := rfl
@[simp] theorem setBooted_busy (b : Bool) : (setBooted b s).busy = s.busy := rfl
@[simp] theorem setBooted_txs (b : Bool) : (setBooted b s).txs = s.txs := rfl
@[simp] theorem setBooted_shreg (b : Bool) : (setBooted b s).shreg = s.shreg := rfl
@[simp] theorem setBooted_cur (b : Bool) : (setBooted b s).cur = s.cur := rfl
@[simp] theorem setBooted_bitcnt (b : Bool) : (setBooted b s).bitcnt = s.bitcnt := rfl
@[simp] theorem setBooted_qcnt (b : Bool) : (setBooted b s).qcnt = s.qcnt := rfl
@[simp] theorem setBooted_nv (b : Bool) : (setBooted b s).nv = s.nv := rfl
@[simp] theorem setBooted_trace (b : Bool) : (setBooted b s).trace = s.trace := rfl
@[simp] theorem setBooted_wrQueue (b : Bool) : (setBooted b s).wrQueue = s.wrQueue := rfl
@[simp] theorem setBooted_rdWaiting (b : Bool) : (setBooted b s).rdWaiting = s.rdWaiting := rfl
@[simp] theorem setBooted_env (b : Bool) : (setBooted b s).env = s.env := rfl
@[simp] theorem setBooted_freeIdx (b : Bool) : (setBooted b s).freeIdx = s.freeIdx := rfl

/-! ## setOutputs -/

@[simp] theorem setOutputs_addr (x y z : Bool) : (setOutputs x y z s).addr = s.addr := rfl
@[simp] theorem setOutputs_mask (x y z : Bool) : (setOutputs x y z s).mask = s.mask := rfl
@[simp] theorem setOutputs_cw (x y z : Bool) : (setOutputs x y z s).cw = s.cw := rfl
@[simp] theorem setOutputs_rep (x y z : Bool) : (setOutputs x y z s).rep = s.rep := rfl
@[simp] theorem setOutputs_deb (x y z : Bool) : (setOutputs x y z s).deb = s.deb := rfl
@[simp] theorem setOutputs_booted (x y z : Bool) : (setOutputs x y z s).booted = s.booted := rfl
@[simp] theorem setOutputs_rfOut (x y z : Bool) : (setOutputs x y z s).rfOut = x := rfl
@[simp] theorem setOutputs_crit (x y z : Bool) : (setOutputs x y z s).crit = y := rfl
@[simp] theorem setOutputs_busy (x y z : Bool) : (setOutputs x y z s).busy = z := rfl
@[simp] theorem setOutputs_txs (x y z : Bool) : (setOutputs x y z s).txs = s.txs := rfl
@[simp] theorem setOutputs_shreg (x y z : Bool) : (setOutputs x y z s).shreg = s.shreg := rfl
@[simp] theorem setOutputs_cur (x y z : Bool) : (setOutputs x y z s).cur = s.cur := rfl
@[simp] theorem setOutputs_bitcnt (x y z : Bool) : (setOutputs x y z s).bitcnt = s.bitcnt := rfl
@[simp] theorem setOutputs_qcnt (x y z : Bool) : (setOutputs x y z s).qcnt = s.qcnt := rfl
@[simp] theorem setOutputs_nv (x y z : Bool) : (setOutputs x y z s).nv = s.nv := rfl
@[simp] theorem setOutputs_trace (x y z : Bool) : (setOutputs x y z s).trace = s.trace := rfl
@[simp] theorem setOutputs_wrQueue (x y z : Bool) : (setOutputs x y z s).wrQueue = s.wrQueue := rfl
@[simp] theorem setOutputs_rdWaiting (x y z : Bool) : (setOutputs x y z s).rdWaiting = s.rdWaiting := rfl
@[simp] theorem setOutputs_env (x y z : Bool) : (setOutputs x y z s).env = s.env := rfl
@[simp] theorem setOutputs_freeIdx (x y z : Bool) : (setOutputs x y z s).freeIdx = s.freeIdx := rfl

/-! ## setTx -/

@[simp] theorem setTx_addr (x : TxState) (h : Codeword) (c : Bool) (b q : Nat) : (setTx x h c b q s).addr = s.addr := rfl
@[simp] theorem setTx_mask (x : TxState) (h : Codeword) (c : Bool) (b q : Nat) : (setTx x h c b q s).mask = s.mask := rfl
@[simp] theorem setTx_cw (x : TxState) (h : Codeword) (c : Bool) (b q : Nat) : (setTx x h c b q s).cw = s.cw := rfl
@[simp] theorem setTx_rep (x : TxState) (h : Codeword) (c : Bool) (b q : Nat) : (setTx x h c b q s).rep = s.rep := rfl
@[simp] theorem setTx_deb (x : TxState) (h : Codeword) (c : Bool) (b q : Nat) : (setTx x h c b q s).deb = s.deb := rfl
@[simp] theorem setTx_booted (x : TxState) (h : Codeword) (c : Bool) (b q : Nat) : (setTx x h c b q s).booted = s.booted := rfl
@[simp] theorem setTx_rfOut (x : TxState) (h : Codeword) (c : Bool) (b q : Nat) : (setTx x h c b q s).rfOut = s.rfOut := rfl
@[simp] theorem setTx_crit (x : TxState) (h : Codeword) (c : Bool) (b q : Nat) : (setTx x h c b q s).crit = s.crit := rfl
@[simp] theorem setTx_busy (x : TxState) (h : Codeword) (c : Bool) (b q : Nat) : (setTx x h c b q s).busy = s.busy := rfl
@[simp] theorem setTx_txs (x : TxState) (h : Codeword) (c : Bool) (b q : Nat) : (setTx x h c b q s).txs = x := rfl
@[simp] theorem setTx_shreg (x : TxState) (h : Codeword) (c : Bool) (b q : Nat) : (setTx x h c b q s).shreg = h := rfl
@[simp] theorem setTx_cur (x : TxState) (h : Codeword) (c : Bool) (b q : Nat) : (setTx x h c b q s).cur = c := rfl
@[simp] theorem setTx_bitcnt (x : TxState) (h : Codeword) (c : Bool) (b q : Nat) : (setTx x h c b q s).bitcnt = b := rfl
@[simp] theorem setTx_qcnt (x : TxState) (h : Codeword) (c : Bool) (b q : Nat) : (setTx x h c b q s).qcnt = q := rfl
@[simp] theorem setTx_nv (x : TxState) (h : Codeword) (c : Bool) (b q : Nat) : (setTx x h c b q s).nv = s.nv := rfl
@[simp] theorem setTx_trace (x : TxState) (h : Codeword) (c : Bool) (b q : Nat) : (setTx x h c b q s).trace = s.trace := rfl
@[simp] theorem setTx_wrQueue (x : TxState) (h : Codeword) (c : Bool) (b q : Nat) : (setTx x h c b q s).wrQueue = s.wrQueue := rfl
@[simp] theorem setTx_rdWaiting (x : TxState) (h : Codeword) (c : Bool) (b q : Nat) : (setTx x h c b q s).rdWaiting = s.rdWaiting := rfl
@[simp] theorem setTx_env (x : TxState) (h : Codeword) (c : Bool) (b q : Nat) : (setTx x h c b q s).env = s.env := rfl
@[simp] theorem setTx_freeIdx (x : TxState) (h : Codeword) (c : Bool) (b q : Nat) : (setTx x h c b q s).freeIdx = s.freeIdx := rfl

/-! ## setNv -/

@[simp] theorem setNv_addr (m : Memory) : (setNv m s).addr = s.addr := rfl
@[simp] theorem setNv_mask (m : Memory) : (setNv m s).mask = s.mask := rfl
@[simp] theorem setNv_cw (m : Memory) : (setNv m s).cw = s.cw := rfl
@[simp] theorem setNv_rep (m : Memory) : (setNv m s).rep = s.rep := rfl
@[simp] theorem setNv_deb (m : Memory) : (setNv m s).deb = s.deb := rfl
@[simp] theorem setNv_booted (m : Memory) : (setNv m s).booted = s.booted := rfl
@[simp] theorem setNv_rfOut (m : Memory) : (setNv m s).rfOut = s.rfOut := rfl
@[simp] theorem setNv_crit (m : Memory) : (setNv m s).crit = s.crit := rfl
@[simp] theorem setNv_busy (m : Memory) : (setNv m s).busy = s.busy := rfl
@[simp] theorem setNv_txs (m : Memory) : (setNv m s).txs = s.txs := rfl
@[simp] theorem setNv_shreg (m : Memory) : (setNv m s).shreg = s.shreg := rfl
@[simp] theorem setNv_cur (m : Memory) : (setNv m s).cur = s.cur := rfl
@[simp] theorem setNv_bitcnt (m : Memory) : (setNv m s).bitcnt = s.bitcnt := rfl
@[simp] theorem setNv_qcnt (m : Memory) : (setNv m s).qcnt = s.qcnt := rfl
@[simp] theorem setNv_nv (m : Memory) : (setNv m s).nv = m := rfl
@[simp] theorem setNv_trace (m : Memory) : (setNv m s).trace = s.trace := rfl
@[simp] theorem setNv_wrQueue (m : Memory) : (setNv m s).wrQueue = s.wrQueue := rfl
@[simp] theorem setNv_rdWaiting (m : Memory) : (setNv m s).rdWaiting = s.rdWaiting := rfl
@[simp] theorem setNv_env (m : Memory) : (setNv m s).env = s.env := rfl
@[simp] theorem setNv_freeIdx (m : Memory) : (setNv m s).freeIdx = s.freeIdx := rfl

/-! ## setHost -/

@[simp] theorem setHost_addr (w : List Report) (n : Nat) : (setHost w n s).addr = s.addr := rfl
@[simp] theorem setHost_mask (w : List Report) (n : Nat) : (setHost w n s).mask = s.mask := rfl
@[simp] theorem setHost_cw (w : List Report) (n : Nat) : (setHost w n s).cw = s.cw := rfl
@[simp] theorem setHost_rep (w : List Report) (n : Nat) : (setHost w n s).rep = s.rep := rfl
@[simp] theorem setHost_deb (w : List Report) (n : Nat) : (setHost w n s).deb = s.deb := rfl
@[simp] theorem setHost_booted (w : List Report) (n : Nat) : (setHost w n s).booted = s.booted := rfl
@[simp] theorem setHost_rfOut (w : List Report) (n : Nat) : (setHost w n s).rfOut = s.rfOut := rfl
@[simp] theorem setHost_crit (w : List Report) (n : Nat) : (setHost w n s).crit = s.crit := rfl
@[simp] theorem setHost_busy (w : List Report) (n : Nat) : (setHost w n s).busy = s.busy := rfl
@[simp] theorem setHost_txs (w : List Report) (n : Nat) : (setHost w n s).txs = s.txs := rfl
@[simp] theorem setHost_shreg (w : List Report) (n : Nat) : (setHost w n s).shreg = s.shreg := rfl
@[simp] theorem setHost_cur (w : List Report) (n : Nat) : (setHost w n s).cur = s.cur := rfl
@[simp] theorem setHost_bitcnt (w : List Report) (n : Nat) : (setHost w n s).bitcnt = s.bitcnt := rfl
@[simp] theorem setHost_qcnt (w : List Report) (n : Nat) : (setHost w n s).qcnt = s.qcnt := rfl
@[simp] theorem setHost_nv (w : List Report) (n : Nat) : (setHost w n s).nv = s.nv := rfl
@[simp] theorem setHost_trace (w : List Report) (n : Nat) : (setHost w n s).trace = s.trace := rfl
@[simp] theorem setHost_wrQueue (w : List Report) (n : Nat) : (setHost w n s).wrQueue = w := rfl
@[simp] theorem setHost_rdWaiting (w : List Report) (n : Nat) : (setHost w n s).rdWaiting = n := rfl
@[simp] theorem setHost_env (w : List Report) (n : Nat) : (setHost w n s).env = s.env := rfl
@[simp] theorem setHost_freeIdx (w : List Report) (n : Nat) : (setHost w n s).freeIdx = s.freeIdx := rfl

/-! ## setEnv -/

@[simp] theorem setEnv_addr (l : List EnvCycle) : (setEnv l s).addr = s.addr := rfl
@[simp] theorem setEnv_mask (l : List EnvCycle) : (setEnv l s).mask = s.mask := rfl
@[simp] theorem setEnv_cw (l : List EnvCycle) : (setEnv l s).cw = s.cw := rfl
@[simp] theorem setEnv_rep (l : List EnvCycle) : (setEnv l s).rep = s.rep := rfl
@[simp] theorem setEnv_deb (l : List EnvCycle) : (setEnv l s).deb = s.deb := rfl
@[simp] theorem setEnv_booted (l : List EnvCycle) : (setEnv l s).booted = s.booted := rfl
@[simp] theorem setEnv_rfOut (l : List EnvCycle) : (setEnv l s).rfOut = s.rfOut := rfl
@[simp] theorem setEnv_crit (l : List EnvCycle) : (setEnv l s).crit = s.crit := rfl
@[simp] theorem setEnv_busy (l : List EnvCycle) : (setEnv l s).busy = s.busy := rfl
@[simp] theorem setEnv_txs (l : List EnvCycle) : (setEnv l s).txs = s.txs := rfl
@[simp] theorem setEnv_shreg (l : List EnvCycle) : (setEnv l s).shreg = s.shreg := rfl
@[simp] theorem setEnv_cur (l : List EnvCycle) : (setEnv l s).cur = s.cur := rfl
@[simp] theorem setEnv_bitcnt (l : List EnvCycle) : (setEnv l s).bitcnt = s.bitcnt := rfl
@[simp] theorem setEnv_qcnt (l : List EnvCycle) : (setEnv l s).qcnt = s.qcnt := rfl
@[simp] theorem setEnv_nv (l : List EnvCycle) : (setEnv l s).nv = s.nv := rfl
@[simp] theorem setEnv_trace (l : List EnvCycle) : (setEnv l s).trace = s.trace := rfl
@[simp] theorem setEnv_wrQueue (l : List EnvCycle) : (setEnv l s).wrQueue = s.wrQueue := rfl
@[simp] theorem setEnv_rdWaiting (l : List EnvCycle) : (setEnv l s).rdWaiting = s.rdWaiting := rfl
@[simp] theorem setEnv_env (l : List EnvCycle) : (setEnv l s).env = l := rfl
@[simp] theorem setEnv_freeIdx (l : List EnvCycle) : (setEnv l s).freeIdx = s.freeIdx := rfl

/-! ## setFreeIdx -/

@[simp] theorem setFreeIdx_addr (n : Nat) : (setFreeIdx n s).addr = s.addr := rfl
@[simp] theorem setFreeIdx_mask (n : Nat) : (setFreeIdx n s).mask = s.mask := rfl
@[simp] theorem setFreeIdx_cw (n : Nat) : (setFreeIdx n s).cw = s.cw := rfl
@[simp] theorem setFreeIdx_rep (n : Nat) : (setFreeIdx n s).rep = s.rep := rfl
@[simp] theorem setFreeIdx_deb (n : Nat) : (setFreeIdx n s).deb = s.deb := rfl
@[simp] theorem setFreeIdx_booted (n : Nat) : (setFreeIdx n s).booted = s.booted := rfl
@[simp] theorem setFreeIdx_rfOut (n : Nat) : (setFreeIdx n s).rfOut = s.rfOut := rfl
@[simp] theorem setFreeIdx_crit (n : Nat) : (setFreeIdx n s).crit = s.crit := rfl
@[simp] theorem setFreeIdx_busy (n : Nat) : (setFreeIdx n s).busy = s.busy := rfl
@[simp] theorem setFreeIdx_txs (n : Nat) : (setFreeIdx n s).txs = s.txs := rfl
@[simp] theorem setFreeIdx_shreg (n : Nat) : (setFreeIdx n s).shreg = s.shreg := rfl
@[simp] theorem setFreeIdx_cur (n : Nat) : (setFreeIdx n s).cur = s.cur := rfl
@[simp] theorem setFreeIdx_bitcnt (n : Nat) : (setFreeIdx n s).bitcnt = s.bitcnt := rfl
@[simp] theorem setFreeIdx_qcnt (n : Nat) : (setFreeIdx n s).qcnt = s.qcnt := rfl
@[simp] theorem setFreeIdx_nv (n : Nat) : (setFreeIdx n s).nv = s.nv := rfl
@[simp] theorem setFreeIdx_trace (n : Nat) : (setFreeIdx n s).trace = s.trace := rfl
@[simp] theorem setFreeIdx_wrQueue (n : Nat) : (setFreeIdx n s).wrQueue = s.wrQueue := rfl
@[simp] theorem setFreeIdx_rdWaiting (n : Nat) : (setFreeIdx n s).rdWaiting = s.rdWaiting := rfl
@[simp] theorem setFreeIdx_env (n : Nat) : (setFreeIdx n s).env = s.env := rfl
@[simp] theorem setFreeIdx_freeIdx (n : Nat) : (setFreeIdx n s).freeIdx = n := rfl

end Sys2Proof.Machine
end

