-- ==== Sys2Proof/Laws/Words.lean ====
section
/-! SUPPORT. The numbers behind concatenated fields (00_scope.md R8): addresses of nibbles, stored records, report words,
codewords. -/

namespace Sys2Proof.Machine

/-- Concatenation puts the left operand in the high bits (00_scope.md R8). -/
theorem append_toNat {n m : Nat} (x : BitVec n) (y : BitVec m) : (x ++ y).toNat = x.toNat * 2 ^ m + y.toNat := by
  rw [BitVec.toNat_append, ← Nat.shiftLeft_add_eq_or_of_lt y.isLt, Nat.shiftLeft_eq]

/-- A field of a value, as a number. -/
theorem field_toNat {n : Nat} (x : BitVec n) (lo len : Nat) :
    (x.extractLsb' lo len).toNat = x.toNat / 2 ^ lo % 2 ^ len := by
  rw [BitVec.extractLsb'_toNat, Nat.shiftRight_eq_div_pow]

theorem addrOfNibbles_toNat (n0 n1 n2 n3 n4 : Nibble) :
    (addrOfNibbles n0 n1 n2 n3 n4).toNat =
      n0.toNat * 65536 + n1.toNat * 4096 + n2.toNat * 256 + n3.toNat * 16 + n4.toNat := by
  simp only [addrOfNibbles, append_toNat]
  omega

theorem addrNibble_toNat (a : Addr) (k : Nat) : (addrNibble a k).toNat = a.toNat / 2 ^ (4 * k) % 16 := by
  rw [addrNibble, field_toNat]
  rfl

theorem recordAddr_toNat (b0 b1 b2 : Byte) :
    (recordAddr b0 b1 b2).toNat = b0.toNat + 256 * b1.toNat + 65536 * (b2.toNat % 16) := by
  simp only [recordAddr, append_toNat, field_toNat]
  omega

/-- The five nibbles of an address make it (30_encoding.md R86). -/
theorem addrOfNibbles_addrNibble (a : Addr) :
    addrOfNibbles (addrNibble a 4) (addrNibble a 3) (addrNibble a 2) (addrNibble a 1) (addrNibble a 0) = a := by
  apply BitVec.eq_of_toNat_eq
  have := a.isLt
  simp only [addrOfNibbles_toNat, addrNibble_toNat]
  omega

/-- The nibbles of an address made of five are those five. -/
theorem addrNibble_addrOfNibbles (n0 n1 n2 n3 n4 : Nibble) :
    addrNibble (addrOfNibbles n0 n1 n2 n3 n4) 4 = n0 ∧ addrNibble (addrOfNibbles n0 n1 n2 n3 n4) 3 = n1 ∧
    addrNibble (addrOfNibbles n0 n1 n2 n3 n4) 2 = n2 ∧ addrNibble (addrOfNibbles n0 n1 n2 n3 n4) 1 = n3 ∧
    addrNibble (addrOfNibbles n0 n1 n2 n3 n4) 0 = n4 := by
  have h0 := n0.isLt
  have h1 := n1.isLt
  have h2 := n2.isLt
  have h3 := n3.isLt
  have h4 := n4.isLt
  refine ⟨?_, ?_, ?_, ?_, ?_⟩ <;> apply BitVec.eq_of_toNat_eq <;>
    simp only [addrNibble_toNat, addrOfNibbles_toNat] <;> omega

/-- The three bytes of a record, as numbers (20_memory.md R61). -/
theorem recordOf_eq (a : Addr) :
    ∃ b0 b1 b2 : Byte, recordOf a = [b0, b1, b2] ∧ b0.toNat = a.toNat % 256 ∧ b1.toNat = a.toNat / 256 % 256 ∧
      b2.toNat = a.toNat / 65536 := by
  refine ⟨_, _, _, rfl, ?_, ?_, ?_⟩ <;> simp only [field_toNat, BitVec.toNat_setWidth] <;> have := a.isLt <;> omega

/-- A record is never all-ones (20_memory.md R61, R63). -/
theorem erasedRecord_recordOf (a : Addr) : erasedRecord (recordOf a) = false := by
  obtain ⟨b0, b1, b2, h, -, -, h2⟩ := recordOf_eq a
  have ha := a.isLt
  have : b2 ≠ Config.erasedByte := by
    intro h3
    rw [h3] at h2
    simp [Config.erasedByte] at h2
    omega
  simp [h, erasedRecord, this]

/-- A record loads back as its address (40_pairing_store.md R114). -/
theorem recordAddr_recordOf (a : Addr) (b0 b1 b2 : Byte) (h : recordOf a = [b0, b1, b2]) : recordAddr b0 b1 b2 = a := by
  obtain ⟨c0, c1, c2, h', h0, h1, h2⟩ := recordOf_eq a
  rw [h] at h'
  obtain ⟨rfl, rfl, rfl⟩ : b0 = c0 ∧ b1 = c1 ∧ b2 = c2 := by simpa using h'
  apply BitVec.eq_of_toNat_eq
  have := a.isLt
  rw [recordAddr_toNat]
  omega

/-- The codeword as a number: shift and or are sixteen times and plus (41_codeword_encoder.md R122). -/
theorem encodeCodeword_toNat (a : Addr) (act : Action) :
    (encodeCodeword a act).toNat = a.toNat * 16 + (nibbleOf act).toNat := by
  have ha := a.isLt
  have hn := (nibbleOf act).isLt
  have h1 : a.toNat <<< 4 % 2 ^ 24 = a.toNat <<< 4 := by
    rw [Nat.shiftLeft_eq]
    omega
  have h2 : a.toNat % 2 ^ 24 = a.toNat := by omega
  have h3 : (nibbleOf act).toNat % 2 ^ 24 = (nibbleOf act).toNat := by omega
  simp only [encodeCodeword, BitVec.toNat_or, BitVec.toNat_shiftLeft, BitVec.toNat_setWidth]
  rw [h2, h3, h1, ← Nat.shiftLeft_add_eq_or_of_lt hn, Nat.shiftLeft_eq]

/-- The two fields of a codeword (30_encoding.md R88). -/
theorem codeword_fields (a : Addr) (act : Action) :
    cwAddr (encodeCodeword a act) = a ∧ cwNibble (encodeCodeword a act) = nibbleOf act := by
  have ha := a.isLt
  have hn := (nibbleOf act).isLt
  constructor <;> apply BitVec.eq_of_toNat_eq <;> simp only [cwAddr, cwNibble, field_toNat, encodeCodeword_toNat] <;> omega

end Sys2Proof.Machine
end

