-- ==== Sys2Proof/Laws/Decode.lean ====
section
/-! SUPPORT. Decoding by the examined bytes: the opcode byte selects, and each operand form has one lemma. -/

namespace Sys2Proof.Machine

theorem decode_allOn {r : Report} (h : r.b0 = 0xFE) : decode r = .allOn := by
  simp [decode, h, Config.opcAllOn]

theorem decode_allOff {r : Report} (h : r.b0 = 0xFC) : decode r = .allOff := by
  simp [decode, h, Config.opcAllOn, Config.opcAllOff]

theorem decode_on {r : Report} (h : r.b0 = 0xFF) :
    decode r = match socketOfIndex r.b1 with | some k => onInstr k | none => .ignored :=
  (if_neg (by rw [h]; decide)).trans ((if_neg (by rw [h]; decide)).trans (if_pos h))

theorem decode_off {r : Report} (h : r.b0 = 0xFD) :
    decode r = match socketOfIndex r.b1 with | some k => offInstr k | none => .ignored :=
  (if_neg (by rw [h]; decide)).trans ((if_neg (by rw [h]; decide)).trans
    ((if_neg (by rw [h]; decide)).trans (if_pos h)))

theorem decode_setSerial {r : Report} (h : r.b0 = 0xFA) :
    decode r = match parseAddr r.b1 r.b2 r.b3 r.b4 r.b5 r.b6 r.b7 with
      | some a => .setSerial a
      | none => .ignored :=
  (if_neg (by rw [h]; decide)).trans ((if_neg (by rw [h]; decide)).trans
    ((if_neg (by rw [h]; decide)).trans ((if_neg (by rw [h]; decide)).trans (if_pos h))))

theorem decode_unknown {r : Report} (h1 : r.b0 ≠ 0xFE) (h2 : r.b0 ≠ 0xFC) (h3 : r.b0 ≠ 0xFF) (h4 : r.b0 ≠ 0xFD)
    (h5 : r.b0 ≠ 0xFA) : decode r = .ignored := by
  simp_all [decode, Config.opcAllOn, Config.opcAllOff, Config.opcOn, Config.opcOff, Config.opcSetSerial]

/-- The four valid indices, and nothing else (30_encoding.md R85). -/
theorem socketOfIndex_eq_some (b : Byte) (k : Socket) : socketOfIndex b = some k ↔ b = BitVec.ofNat 8 k.index := by
  cases k <;> revert b <;> decide

/-- 0 and 5 to 255 name no socket (30_encoding.md R85). -/
theorem socketOfIndex_eq_none (b : Byte) : socketOfIndex b = none ↔ b = 0 ∨ 4 < b := by
  revert b; decide

/-- The digit HexChar makes is read back (30_encoding.md R87). -/
theorem hexVal_hexChar (v : Nibble) : hexVal (hexChar v) = some v := by
  revert v; decide

/-- When a payload parses, and to what (30_encoding.md R86). -/
theorem parseAddr_eq_some (p0 p1 p2 p3 p4 p5 p6 : Byte) (a : Addr) :
    parseAddr p0 p1 p2 p3 p4 p5 p6 = some a ↔
      ∃ n0 n1 n2 n3 n4, hexVal p0 = some n0 ∧ hexVal p1 = some n1 ∧ hexVal p2 = some n2 ∧ hexVal p3 = some n3 ∧
        hexVal p4 = some n4 ∧ addrOfNibbles n0 n1 n2 n3 n4 = a := by
  unfold parseAddr
  constructor
  · intro h
    split at h
    · exact ⟨_, _, _, _, _, ‹_›, ‹_›, ‹_›, ‹_›, ‹_›, by simpa using h⟩
    · cases h
  · rintro ⟨n0, n1, n2, n3, n4, h0, h1, h2, h3, h4, rfl⟩
    simp [h0, h1, h2, h3, h4]

/-- The characters of an address parse to it (30_encoding.md R86, R87). -/
theorem parseAddr_hexChars (a : Addr) (x y : Byte) :
    parseAddr (hexChar (addrNibble a 4)) (hexChar (addrNibble a 3)) (hexChar (addrNibble a 2))
      (hexChar (addrNibble a 1)) (hexChar (addrNibble a 0)) x y = some a := by
  rw [parseAddr_eq_some]
  exact ⟨_, _, _, _, _, hexVal_hexChar _, hexVal_hexChar _, hexVal_hexChar _, hexVal_hexChar _, hexVal_hexChar _,
    addrOfNibbles_addrNibble a⟩

end Sys2Proof.Machine
end

