-- ==== Sys2Proof/Laws/Memory.lean ====
section
/-! SUPPORT. The laws of the byte array: a write is read back at its offset, leaves every other offset alone, and keeps the
canonical form; two canonical arrays that read alike are equal. -/

namespace Sys2Proof.Machine

@[simp] theorem read_nil (a : Nat) : Memory.read [] a = Config.erasedByte := rfl

theorem read_cons (c : Host.Cell) (m : Memory) (a : Nat) :
    Memory.read (c :: m) a = if a = c.1 then c.2 else Memory.read m a := rfl

/-- An offset below every listed one reads as erased. -/
theorem read_of_lt (m : Memory) (a : Nat) (h : ∀ c ∈ m, a < c.1) : Memory.read m a = Config.erasedByte := by
  induction m with
  | nil => rfl
  | cons c m ih =>
    have hc := h c (List.mem_cons_self ..)
    rw [read_cons, if_neg (by omega)]
    exact ih fun d hd => h d (List.mem_cons_of_mem _ hd)

/-- A write leaves every other offset alone. -/
theorem read_write_other (m : Memory) (a x : Nat) (b : Byte) (h : x ≠ a) :
    Memory.read (Memory.write m a b) x = Memory.read m x := by
  induction m with
  | nil => simp only [Memory.write]; split <;> simp [read_cons, h]
  | cons c m ih =>
    simp only [Memory.write]
    split
    · split <;> simp [read_cons, h]
    · split
      · next hac => subst hac; split <;> simp [read_cons, h]
      · simp [read_cons, ih]

/-- A write is read back. -/
theorem read_write_same (m : Memory) (a : Nat) (b : Byte) (h : Memory.wf m) :
    Memory.read (Memory.write m a b) a = b := by
  induction m with
  | nil => simp only [Memory.write]; split <;> simp_all [read_cons]
  | cons c m ih =>
    obtain ⟨hp, hv⟩ := h
    rw [List.pairwise_cons] at hp
    have hm : Memory.wf m := ⟨hp.2, fun d hd => hv d (List.mem_cons_of_mem _ hd)⟩
    simp only [Memory.write]
    split
    · next hlt =>
      split
      · next hb =>
        rw [hb]
        refine read_of_lt _ _ fun d hd => ?_
        rcases List.mem_cons.mp hd with rfl | hd
        · exact hlt
        · exact Nat.lt_trans hlt (hp.1 d hd)
      · simp [read_cons]
    · split
      · next hac =>
        split
        · next hb => rw [hb]; exact read_of_lt _ _ fun d hd => hac ▸ hp.1 d hd
        · simp [read_cons]
      · next hac => rw [read_cons, if_neg hac]; exact ih hm

/-- Every listed offset of a written array was listed, or is the one written. -/
theorem mem_write (m : Memory) (a : Nat) (b : Byte) (c : Host.Cell) (h : c ∈ Memory.write m a b) :
    c ∈ m ∨ (c = (a, b) ∧ b ≠ Config.erasedByte) := by
  induction m with
  | nil => simp only [Memory.write] at h; split at h <;> simp_all
  | cons d m ih =>
    simp only [Memory.write] at h
    split at h
    · split at h
      · exact .inl h
      · rcases List.mem_cons.mp h with rfl | h
        · exact .inr ⟨rfl, by assumption⟩
        · exact .inl h
    · split at h
      · split at h
        · exact .inl (List.mem_cons_of_mem _ h)
        · rcases List.mem_cons.mp h with rfl | h
          · exact .inr ⟨rfl, by assumption⟩
          · exact .inl (List.mem_cons_of_mem _ h)
      · rcases List.mem_cons.mp h with rfl | h
        · exact .inl (List.mem_cons_self ..)
        · rcases ih h with h | h
          · exact .inl (List.mem_cons_of_mem _ h)
          · exact .inr h

/-- A write keeps the canonical form. -/
theorem write_wf (m : Memory) (a : Nat) (b : Byte) (h : Memory.wf m) : Memory.wf (Memory.write m a b) := by
  refine ⟨?_, fun c hc => ?_⟩
  · induction m with
    | nil => simp only [Memory.write]; split <;> simp
    | cons d m ih =>
      obtain ⟨hp, hv⟩ := h
      have hp' := List.pairwise_cons.mp hp
      have hm : Memory.wf m := ⟨hp'.2, fun d hd => hv d (List.mem_cons_of_mem _ hd)⟩
      simp only [Memory.write]
      split
      · next hlt =>
        split
        · exact hp
        · refine List.pairwise_cons.mpr ⟨fun c hc => ?_, hp⟩
          rcases List.mem_cons.mp hc with rfl | hc
          · exact hlt
          · exact Nat.lt_trans hlt (hp'.1 c hc)
      · split
        · next hac =>
          split
          · exact hp'.2
          · exact List.pairwise_cons.mpr ⟨fun c hc => hac ▸ hp'.1 c hc, hp'.2⟩
        · refine List.pairwise_cons.mpr ⟨fun c hc => ?_, ih hm⟩
          rcases mem_write m a b c hc with hc | ⟨rfl, -⟩
          · exact hp'.1 c hc
          · show d.1 < a
            omega
  · rcases mem_write m a b c hc with hc | ⟨rfl, hb⟩
    · exact h.2 c hc
    · exact hb

@[simp] theorem writeBytes_nil (m : Memory) (off : Nat) : Memory.writeBytes m off [] = m := rfl

@[simp] theorem writeBytes_cons (m : Memory) (off : Nat) (b : Byte) (bs : List Byte) :
    Memory.writeBytes m off (b :: bs) = Memory.writeBytes (Memory.write m off b) (off + 1) bs := rfl

/-- Writing several bytes keeps the canonical form. -/
theorem writeBytes_wf (m : Memory) (off : Nat) (bs : List Byte) (h : Memory.wf m) :
    Memory.wf (Memory.writeBytes m off bs) := by
  induction bs generalizing m off with
  | nil => exact h
  | cons b bs ih => exact ih _ _ (write_wf m off b h)

/-- Writing several bytes leaves every offset outside them alone. -/
theorem read_writeBytes_other (m : Memory) (off x : Nat) (bs : List Byte) (h : x < off ∨ off + bs.length ≤ x) :
    Memory.read (Memory.writeBytes m off bs) x = Memory.read m x := by
  induction bs generalizing m off with
  | nil => rfl
  | cons b bs ih =>
    rw [writeBytes_cons, ih _ _ (by simp only [List.length_cons] at h; omega),
      read_write_other _ _ _ _ (by simp only [List.length_cons] at h; omega)]

/-- The bytes written are read back. -/
theorem read_writeBytes_same (m : Memory) (off k : Nat) (bs : List Byte) (h : Memory.wf m) (hk : k < bs.length) :
    Memory.read (Memory.writeBytes m off bs) (off + k) = bs[k] := by
  induction bs generalizing m off k with
  | nil => simp at hk
  | cons b bs ih =>
    rw [writeBytes_cons]
    cases k with
    | zero =>
      rw [read_writeBytes_other _ _ _ _ (by omega)]
      exact read_write_same m off b h
    | succ k =>
      have := ih (Memory.write m off b) (off + 1) k (write_wf m off b h) (by simpa using hk)
      rw [show off + (k + 1) = off + 1 + k by omega, this]
      rfl

/-- The three bytes at an offset, lowest first. -/
theorem readBytes_three (m : Memory) (off : Nat) :
    Memory.readBytes m off 3 = [Memory.read m off, Memory.read m (off + 1), Memory.read m (off + 2)] := rfl

/-- Two canonical arrays that read alike at every offset are the same data. -/
theorem memory_ext (m n : Memory) (hm : Memory.wf m) (hn : Memory.wf n)
    (h : ∀ a, Memory.read m a = Memory.read n a) : m = n := by
  have tail_wf : ∀ {c : Host.Cell} {m : Memory}, Memory.wf (c :: m) → Memory.wf m := fun hw =>
    ⟨(List.pairwise_cons.mp hw.1).2, fun d hd => hw.2 d (List.mem_cons_of_mem _ hd)⟩
  have below : ∀ {c : Host.Cell} {m : Memory} {a : Nat}, Memory.wf (c :: m) → a ≤ c.1 →
      Memory.read m a = Config.erasedByte := fun hw ha =>
    read_of_lt _ _ fun d hd => Nat.lt_of_le_of_lt ha ((List.pairwise_cons.mp hw.1).1 d hd)
  induction m generalizing n with
  | nil =>
    cases n with
    | nil => rfl
    | cons d n => exact absurd (by simpa [read_cons] using (h d.1).symm) (hn.2 d (List.mem_cons_self ..))
  | cons c m ih =>
    cases n with
    | nil => exact absurd (by simpa [read_cons] using h c.1) (hm.2 c (List.mem_cons_self ..))
    | cons d n =>
      have key : c.1 = d.1 := by
        rcases Nat.lt_trichotomy c.1 d.1 with hlt | heq | hlt
        · have h1 := h c.1
          rw [read_cons, if_pos rfl, read_cons, if_neg (by omega), below hn (by omega)] at h1
          exact absurd h1 (hm.2 c (List.mem_cons_self ..))
        · exact heq
        · have h1 := h d.1
          rw [read_cons, if_neg (by omega), below hm (by omega), read_cons, if_pos rfl] at h1
          exact absurd h1.symm (hn.2 d (List.mem_cons_self ..))
      have val : c.2 = d.2 := by
        have h1 := h c.1
        rwa [read_cons, if_pos rfl, read_cons, if_pos key] at h1
      have rest : m = n := by
        refine ih n (tail_wf hm) (tail_wf hn) fun a => ?_
        by_cases ha : a = c.1
        · rw [below hm (by omega), below hn (by omega)]
        · have h1 := h a
          rwa [read_cons, if_neg ha, read_cons, if_neg (by omega)] at h1
      rw [Prod.ext key val, rest]

/-- Storage after reset has the canonical form. -/
theorem reset_nv_wf : Memory.wf State.reset.nv := by decide

end Sys2Proof.Machine
end

