-- ==== Sys2Proof/Laws/Commands.lean ====
section
/-! SUPPORT. What each shared operation of the commands can do, said once: the job, the mask, the Pairing Store, RESET and
boot, and exec case by case. -/

namespace Sys2Proof.Machine

/-! ## The job and the mask -/

/-- MASK after an action (43_command_decoder.md R161 to R164). -/
def maskAfter : Action → Mask → Mask
  | .allOn, _ => 0b1111
  | .allOff, _ => 0b0000
  | .on k, m => maskWithOn m k
  | .off k, m => maskWithOff m k

/-- Bit i of MASK after an action: what the action commands for it, else as it was (10_state.md R22). -/
theorem maskAfter_bit (act : Action) (m : Mask) (i : Nat) (hi : i < 4) :
    (maskAfter act m).getLsbD i = (commandsBit i act).getD (m.getLsbD i) := by
  rcases act with _ | _ | k | k <;> (try cases k) <;> interval_cases i <;> revert m <;> decide

/-- A socket command: MASK, then the job, on the address of the moment. -/
theorem exec_socket {i : Instr} {act : Action} (h : i.action = some act) (s : State) :
    exec i s = .next (submitAction act (setMask (maskAfter act s.mask) s)) := by
  cases i <;> simp only [Instr.action, Option.some.injEq, reduceCtorEq] at h <;> subst h <;> rfl

theorem exec_setSerial (a : Addr) (s : State) : exec (.setSerial a) s = .next (pairingSet a s) := rfl

theorem exec_ignored (s : State) : exec .ignored s = .next s := rfl

/-- The instructions are the ten socket commands, SET_SERIAL and IGNORED. -/
theorem instr_cases (i : Instr) : (∃ act, i.action = some act) ∨ (∃ a, i = .setSerial a) ∨ i = .ignored := by
  cases i <;> simp [Instr.action]

theorem isSocketCommand_iff (i : Instr) : isSocketCommand i ↔ ∃ act, i.action = some act := by
  simp [isSocketCommand, Option.ne_none_iff_exists']

/-- Submitting an action writes CW, REP and DEB and nothing else (43_command_decoder.md R167). -/
theorem submitAction_eq (act : Action) (s : State) :
    submitAction act s = setJob (encodeCodeword s.addr act) Config.repeats (debounceOf act) s := rfl

theorem nibbleOf_mem (act : Action) : nibbleOf act ∈ commandNibbles := by
  rcases act with _ | _ | k | k <;> (try cases k) <;> decide

theorem nibbleOf_injective (x y : Action) (h : nibbleOf x = nibbleOf y) : x = y := by
  rcases x with _ | _ | k | k <;> rcases y with _ | _ | l | l <;> (try cases k) <;> (try cases l) <;>
    first | rfl | exact absurd h (by decide)

/-- No codeword of an action is 0 (10_state.md R27 I5). -/
theorem encodeCodeword_ne_zero (a : Addr) (act : Action) : encodeCodeword a act ≠ 0 := by
  intro h
  have := (codeword_fields a act).2
  have hm := nibbleOf_mem act
  rw [h] at this
  rw [← this] at hm
  revert hm
  decide

theorem debounceOf_le (act : Action) : debounceOf act ≤ Config.debMax := by
  cases act <;> simp [debounceOf, Config.debMax, Config.debounceOn]

/-! ## The Pairing Store -/

/-- What the writes of one record do: the copies in storage, one event each, nothing else (40_pairing_store.md R111). -/
theorem writeCopies_eq (offs : List Nat) (bs : List Byte) (s : State) :
    writeCopies offs bs s =
      emitAll (offs.map (fun off => .nvWr off bs)) (setNv (offs.foldl (fun m off => Memory.writeBytes m off bs) s.nv) s) := by
  induction offs generalizing s with
  | nil => simp [writeCopies, emitAll, setNv]
  | cons off offs ih =>
    rw [writeCopies, ih]
    simp [memWrite, emitAll, emit, setNv]

theorem recordOf_length (a : Addr) : (recordOf a).length = 3 := rfl

/-- A write of several copies keeps the canonical form. -/
theorem copies_wf (offs : List Nat) (bs : List Byte) (m : Memory) (h : Memory.wf m) :
    Memory.wf (offs.foldl (fun m off => Memory.writeBytes m off bs) m) := by
  induction offs generalizing m with
  | nil => exact h
  | cons off offs ih => exact ih _ (writeBytes_wf m off bs h)

/-- Outside the copies every byte reads as before (20_memory.md R64). -/
theorem read_copies_other (offs : List Nat) (bs : List Byte) (m : Memory) (x : Nat) (hb : bs.length = 3)
    (h : ∀ off ∈ offs, ¬ inCopy off x) :
    Memory.read (offs.foldl (fun m off => Memory.writeBytes m off bs) m) x = Memory.read m x := by
  induction offs generalizing m with
  | nil => rfl
  | cons off offs ih =>
    have h1 : x < off ∨ off + bs.length ≤ x := by
      have := h off (List.mem_cons_self ..)
      simp only [inCopy, Config.nvLen] at this
      omega
    rw [List.foldl_cons, ih _ fun o ho => h o (List.mem_cons_of_mem _ ho), read_writeBytes_other _ _ _ _ h1]

/-- A copy just written reads back (20_memory.md R64). -/
theorem readBytes_writeBytes (m : Memory) (off : Nat) (a : Addr) (h : Memory.wf m) :
    Memory.readBytes (Memory.writeBytes m off (recordOf a)) off 3 = recordOf a := by
  obtain ⟨b0, b1, b2, hr, -⟩ := recordOf_eq a
  have hk := fun k hk => read_writeBytes_same m off k (recordOf a) h hk
  simp only [hr] at hk ⊢
  have h0 := hk 0 (by simp)
  have h1 := hk 1 (by simp)
  have h2 := hk 2 (by simp)
  simp only [Nat.add_zero, List.getElem_cons_zero, List.getElem_cons_succ] at h0 h1 h2
  rw [readBytes_three, h0, h1, h2]

/-- Three bytes outside what was written read as before. -/
theorem readBytes_writeBytes_other (m : Memory) (off x : Nat) (bs : List Byte) (h : x + 3 ≤ off ∨ off + bs.length ≤ x) :
    Memory.readBytes (Memory.writeBytes m off bs) x 3 = Memory.readBytes m x 3 := by
  simp only [readBytes_three]
  rw [read_writeBytes_other _ _ _ _ (by omega), read_writeBytes_other _ _ _ _ (by omega),
    read_writeBytes_other _ _ _ _ (by omega)]

/-- Storage after SET_SERIAL: the three copies written, in order (40_pairing_store.md R111). -/
def withCopies (a : Addr) (m : Memory) : Memory :=
  Config.nvOffsets.foldl (fun m off => Memory.writeBytes m off (recordOf a)) m

/-- Everything PairingSet does: the copies, one event each, ADDR last (40_pairing_store.md R111). -/
theorem pairingSet_eq (a : Addr) (s : State) :
    pairingSet a s =
      setAddr a (emitAll [.nvWr 0x00 (recordOf a), .nvWr 0x40 (recordOf a), .nvWr 0x80 (recordOf a)]
        (setNv (withCopies a s.nv) s)) := by
  rw [pairingSet, writeCopies_eq]
  rfl

theorem withCopies_wf (a : Addr) (m : Memory) (h : Memory.wf m) : Memory.wf (withCopies a m) := copies_wf _ _ _ h

/-- SET_SERIAL leaves every byte outside the nine alone (20_memory.md R62). -/
theorem read_withCopies_other (a : Addr) (m : Memory) (x : Nat) (h : ∀ off ∈ Config.nvOffsets, ¬ inCopy off x) :
    Memory.read (withCopies a m) x = Memory.read m x :=
  read_copies_other _ _ _ _ rfl h

/-- Each of the three copies holds the record (20_memory.md R62). -/
theorem readBytes_withCopies (a : Addr) (m : Memory) (h : Memory.wf m) (off : Nat) (ho : off ∈ Config.nvOffsets) :
    Memory.readBytes (withCopies a m) off 3 = recordOf a := by
  have w1 := writeBytes_wf m 0 (recordOf a) h
  have w2 := writeBytes_wf _ 0x40 (recordOf a) w1
  simp only [Config.nvOffsets, List.mem_cons, List.not_mem_nil, or_false] at ho
  simp only [withCopies, Config.nvOffsets, List.foldl]
  rcases ho with rfl | rfl | rfl
  · rw [readBytes_writeBytes_other _ _ _ _ (by simp), readBytes_writeBytes_other _ _ _ _ (by simp),
      readBytes_writeBytes _ _ _ h]
  · rw [readBytes_writeBytes_other _ _ _ _ (by simp), readBytes_writeBytes _ _ _ w1]
  · rw [readBytes_writeBytes _ _ _ w2]

/-- No command touches BOOTED, busy or the ports. -/
theorem exec_ports {i : Instr} {s t : State} (h : exec i s = .next t) :
    t.booted = s.booted ∧ t.busy = s.busy ∧ t.wrQueue = s.wrQueue ∧ t.rdWaiting = s.rdWaiting ∧ t.env = s.env := by
  rcases instr_cases i with ⟨act, hd⟩ | ⟨a, rfl⟩ | rfl
  · rw [exec_socket hd] at h
    cases h
    exact ⟨rfl, rfl, rfl, rfl, rfl⟩
  · rw [exec_setSerial, pairingSet_eq] at h
    cases h
    exact ⟨rfl, rfl, rfl, rfl, rfl⟩
  · rw [exec_ignored] at h
    cases h
    exact ⟨rfl, rfl, rfl, rfl, rfl⟩

/-- The load depends on the three bytes of copy 0 and on nothing else (40_pairing_store.md R110). -/
theorem loadedAddr_congr (m n : Memory) (h : Memory.readBytes m 0 3 = Memory.readBytes n 0 3) :
    loadedAddr m = loadedAddr n := by
  have h' := h
  simp only [readBytes_three, List.cons.injEq, and_true, Nat.zero_add] at h'
  unfold loadedAddr
  rw [show Config.nvLen = 3 from rfl, h, h'.1, h'.2.1, h'.2.2]

/-- A copy 0 that holds the record of an address loads as that address (40_pairing_store.md R114). -/
theorem loadedAddr_record (m : Memory) (a : Addr) (h : Memory.readBytes m 0 3 = recordOf a) : loadedAddr m = a := by
  have h' := h
  rw [readBytes_three] at h'
  simp only [loadedAddr, Config.nvLen, h, erasedRecord_recordOf]
  exact recordAddr_recordOf a _ _ _ h'.symm

/-! ## RESET and boot -/

/-- A reset leaves storage, the ports and the environment alone, and appends its own event, after the hold it cut if a
frame was in flight (70_reset_and_hazards.md R241, 42_rf_transmitter.md R143). -/
theorem enterReset_outside (us : Nat) (s : State) :
    (enterReset us s).nv = s.nv ∧ (enterReset us s).wrQueue = s.wrQueue ∧ (enterReset us s).rdWaiting = s.rdWaiting ∧
    (enterReset us s).env = s.env ∧
    (enterReset us s).trace =
      s.trace ++ (if s.busy then [.rf s.rfOut (holdElapsed us s)] else []) ++ [.reset] := by
  unfold enterReset recordCutHold resetRegisters
  cases s.busy <;> simp

/-- The registers after a reset (10_state.md R41). -/
theorem enterReset_registers (us : Nat) (s : State) :
    (enterReset us s).mask = 0 ∧ (enterReset us s).cw = 0 ∧ (enterReset us s).rep = 0 ∧ (enterReset us s).deb = 0 ∧
    (enterReset us s).booted = false ∧ (enterReset us s).busy = false ∧ (enterReset us s).crit = false ∧
    (enterReset us s).rfOut = false ∧ (enterReset us s).txs = .idle ∧ (enterReset us s).bitcnt ≤ 24 ∧
    (enterReset us s).qcnt ≤ 150 := by
  refine ⟨rfl, rfl, rfl, rfl, rfl, rfl, rfl, rfl, rfl, ?_, ?_⟩
  · exact Nat.le_of_lt_succ (Config.freeBitcnt _).isLt
  · exact Nat.le_of_lt_succ (Config.freeQcnt _).isLt

/-- Boot writes ADDR and BOOTED and issues one read of copy 0 (70_reset_and_hazards.md R242). -/
theorem boot_eq (s : State) :
    boot s = { s with addr := loadedAddr s.nv, booted := true, trace := s.trace ++ [.nvRd 0 3] } := rfl

end Sys2Proof.Machine
end

