-- ==== Sys2Proof/Laws/Events.lean ====
section
/-! SUPPORT. The durations, the levels and the frames of a list of events, event by event. -/

namespace Sys2Proof.Machine

@[simp] theorem durations_nil : durations [] = [] := rfl

@[simp] theorem durations_append (es fs : List Event) : durations (es ++ fs) = durations es ++ durations fs :=
  List.filterMap_append

@[simp] theorem durations_rf (l : Bool) (us : Nat) (es : List Event) :
    durations (.rf l us :: es) = us :: durations es := rfl

@[simp] theorem durations_ack (es : List Event) : durations (.ack :: es) = durations es := rfl

@[simp] theorem durations_rdData (r : Report) (es : List Event) : durations ((.rdData r) :: es) = durations es := rfl

@[simp] theorem durations_critOn (es : List Event) : durations (.critOn :: es) = durations es := rfl

@[simp] theorem durations_critOff (es : List Event) : durations (.critOff :: es) = durations es := rfl

@[simp] theorem durations_nvRd (off n : Nat) (es : List Event) : durations ((.nvRd off n) :: es) = durations es := rfl

@[simp] theorem durations_nvWr (off : Nat) (bs : List Byte) (es : List Event) : durations ((.nvWr off bs) :: es) = durations es := rfl

@[simp] theorem durations_wdtKick (es : List Event) : durations (.wdtKick :: es) = durations es := rfl

@[simp] theorem durations_reset (es : List Event) : durations (.reset :: es) = durations es := rfl

@[simp] theorem levelsEvery_nil (q : Nat) : levelsEvery q [] = [] := rfl

@[simp] theorem levelsEvery_append (q : Nat) (es fs : List Event) :
    levelsEvery q (es ++ fs) = levelsEvery q es ++ levelsEvery q fs := List.flatMap_append

@[simp] theorem levelsEvery_rf (q : Nat) (l : Bool) (us : Nat) (es : List Event) :
    levelsEvery q (.rf l us :: es) = List.replicate (us / q) l ++ levelsEvery q es := rfl

@[simp] theorem levelsEvery_ack (q : Nat) (es : List Event) :
    levelsEvery q (.ack :: es) = levelsEvery q es := rfl

@[simp] theorem levelsEvery_rdData (q : Nat) (r : Report) (es : List Event) :
    levelsEvery q ((.rdData r) :: es) = levelsEvery q es := rfl

@[simp] theorem levelsEvery_critOn (q : Nat) (es : List Event) :
    levelsEvery q (.critOn :: es) = levelsEvery q es := rfl

@[simp] theorem levelsEvery_critOff (q : Nat) (es : List Event) :
    levelsEvery q (.critOff :: es) = levelsEvery q es := rfl

@[simp] theorem levelsEvery_nvRd (q : Nat) (off n : Nat) (es : List Event) :
    levelsEvery q ((.nvRd off n) :: es) = levelsEvery q es := rfl

@[simp] theorem levelsEvery_nvWr (q : Nat) (off : Nat) (bs : List Byte) (es : List Event) :
    levelsEvery q ((.nvWr off bs) :: es) = levelsEvery q es := rfl

@[simp] theorem levelsEvery_wdtKick (q : Nat) (es : List Event) :
    levelsEvery q (.wdtKick :: es) = levelsEvery q es := rfl

@[simp] theorem levelsEvery_reset (q : Nat) (es : List Event) :
    levelsEvery q (.reset :: es) = levelsEvery q es := rfl

@[simp] theorem framesIn_nil : framesIn [] = 0 := rfl

@[simp] theorem framesIn_append (es fs : List Event) : framesIn (es ++ fs) = framesIn es + framesIn fs :=
  List.count_append

@[simp] theorem framesIn_critOn (es : List Event) : framesIn (.critOn :: es) = framesIn es + 1 :=
  List.count_cons_self

@[simp] theorem framesIn_rf (l : Bool) (us : Nat) (es : List Event) : framesIn (.rf l us :: es) = framesIn es := rfl

@[simp] theorem framesIn_ack (es : List Event) : framesIn (.ack :: es) = framesIn es := rfl

@[simp] theorem framesIn_rdData (r : Report) (es : List Event) : framesIn ((.rdData r) :: es) = framesIn es := rfl

@[simp] theorem framesIn_critOff (es : List Event) : framesIn (.critOff :: es) = framesIn es := rfl

@[simp] theorem framesIn_nvRd (off n : Nat) (es : List Event) : framesIn ((.nvRd off n) :: es) = framesIn es := rfl

@[simp] theorem framesIn_nvWr (off : Nat) (bs : List Byte) (es : List Event) : framesIn ((.nvWr off bs) :: es) = framesIn es := rfl

@[simp] theorem framesIn_wdtKick (es : List Event) : framesIn (.wdtKick :: es) = framesIn es := rfl

@[simp] theorem framesIn_reset (es : List Event) : framesIn (.reset :: es) = framesIn es := rfl

/-- One microsecond, one level: as many levels as the holds last. -/
theorem levelsEvery_one_length (es : List Event) : (levelsEvery 1 es).length = (durations es).sum := by
  induction es with
  | nil => rfl
  | cons e es ih => cases e <;> simp [ih]

end Sys2Proof.Machine
end

