-- ==== Sys2Proof/Laws/PerInstr.lean ====
section
/-! SUPPORT. What holds of every instruction, one lemma per constructor. -/

namespace Sys2Proof.Laws.TableRow

/-- The report the encoder makes of the instruction selects the instruction's own row of spec/opcode_table.json
(30_encoding.md R97). -/
def Statement (i : Instr) : Prop := (opcodeRow i).selects (encode i).word = true

theorem allOn : Statement .allOn := by unfold Statement; decide

theorem allOff : Statement .allOff := by unfold Statement; decide

theorem on1 : Statement .on1 := by unfold Statement; decide

theorem on2 : Statement .on2 := by unfold Statement; decide

theorem on3 : Statement .on3 := by unfold Statement; decide

theorem on4 : Statement .on4 := by unfold Statement; decide

theorem off1 : Statement .off1 := by unfold Statement; decide

theorem off2 : Statement .off2 := by unfold Statement; decide

theorem off3 : Statement .off3 := by unfold Statement; decide

theorem off4 : Statement .off4 := by unfold Statement; decide

/-- The low byte of the word is the opcode, whatever the address. -/
theorem setSerial (a : Addr) : Statement (.setSerial a) := by
  have low : ((encode (.setSerial a)).word &&& 0xFF).toNat = 0xFA := by
    rw [BitVec.toNat_and]
    refine (Nat.and_two_pow_sub_one_eq_mod _ 8).trans ?_
    simp only [Report.word, Sys2Proof.Machine.append_toNat]
    show _ % 256 = 250
    have : (encode (.setSerial a)).b0.toNat = 250 := rfl
    omega
  exact beq_iff_eq.mpr (BitVec.eq_of_toNat_eq low)

theorem ignored : Statement .ignored := by unfold Statement; decide

end Sys2Proof.Laws.TableRow
end

