-- ==== Sys2Proof/Laws/Step.lean ====
section
/-! SUPPORT. What a step can do, said once: which of the seven things a cycle is, one equation for each kind
of cycle, the scheduler state by state, and the four operations of the spec. -/

namespace Sys2Proof.Machine

/-- A WRITE always completes: the command's next state, and Ack (43_command_decoder.md R160). -/
theorem writeOp_next (r : Report) (s : State) : ∃ t, exec (decode r) s = .next t ∧ writeOp r s = .next (emit .ack t) := by
  rcases instr_cases (decode r) with ⟨act, h⟩ | ⟨a, h⟩ | h
  · exact ⟨_, exec_socket h s, by simp only [writeOp, exec_socket h s]⟩
  · exact ⟨_, by rw [h, exec_setSerial], by simp only [writeOp, h, exec_setSerial]⟩
  · exact ⟨_, by rw [h, exec_ignored], by simp only [writeOp, h, exec_ignored]⟩

/-- The seven things a step can be. -/
theorem step_cases (s : State) :
    (∃ p, (currentCycle s).rst = some p ∧ step s = .next (resetCycle p (takeOffers (currentCycle s) s))) ∨
    ((currentCycle s).rst = none ∧ s.booted = false ∧ step s = .next (boot (takeOffers (currentCycle s) s))) ∨
    ((currentCycle s).rst = none ∧ s.booted = true ∧ s.busy = true ∧
      step s = .next (qStep (takeOffers (currentCycle s) s))) ∨
    (∃ r rest t, takes s r rest ∧ exec (decode r) (acceptedState s rest) = .next t ∧ step s = .next (emit .ack t)) ∨
    ((currentCycle s).rst = none ∧ s.booted = true ∧ s.busy = false ∧ offeredReports s = [] ∧
      s.rdWaiting + (currentCycle s).rd.toNat ≠ 0 ∧
      step s = .next (readOp { acceptedState s [] with rdWaiting := s.rdWaiting + (currentCycle s).rd.toNat - 1 })) ∨
    ((currentCycle s).rst = none ∧ s.booted = true ∧ s.busy = false ∧ offeredReports s = [] ∧
      s.rdWaiting + (currentCycle s).rd.toNat = 0 ∧ (currentCycle s).tick = true ∧
      step s = .next (tickStart (acceptedState s []))) ∨
    ((currentCycle s).rst = none ∧ s.booted = true ∧ s.busy = false ∧ offeredReports s = [] ∧
      s.rdWaiting + (currentCycle s).rd.toNat = 0 ∧ (currentCycle s).tick = false ∧
      step s = .next (acceptedState s [])) := by
  have hq : (takeOffers (currentCycle s) s).wrQueue = offeredReports s := rfl
  have hs : ∀ rest, setHost rest (takeOffers (currentCycle s) s).rdWaiting (takeOffers (currentCycle s) s) =
      acceptedState s rest := fun _ => rfl
  cases hr : (currentCycle s).rst with
  | some p => exact .inl ⟨p, rfl, by simp only [step, runCycle, hr]⟩
  | none =>
    right
    have hb : (takeOffers (currentCycle s) s).booted = s.booted := rfl
    have hy : (takeOffers (currentCycle s) s).busy = s.busy := rfl
    have hn : (takeOffers (currentCycle s) s).rdWaiting = s.rdWaiting + (currentCycle s).rd.toNat := rfl
    cases hbt : s.booted with
    | false => exact .inl ⟨rfl, rfl, by simp [step, runCycle, hr, hb, hbt]⟩
    | true =>
      right
      cases hbu : s.busy with
      | true => exact .inl ⟨rfl, rfl, rfl, by simp [step, runCycle, hr, hb, hbt, hy, hbu]⟩
      | false =>
        right
        have hstep : step s = acceptCycle (currentCycle s).tick (takeOffers (currentCycle s) s) := by
          simp [step, runCycle, hr, hb, hbt, hy, hbu]
        cases ho : offeredReports s with
        | cons r rest =>
          obtain ⟨t, h1, h2⟩ := writeOp_next r (acceptedState s rest)
          exact .inl ⟨r, rest, t, ⟨hr, hbt, hbu, ho⟩, h1, by rw [hstep, acceptCycle, hq, ho]; exact h2⟩
        | nil =>
          right
          have hacc : setHost [] (s.rdWaiting + (currentCycle s).rd.toNat - 1) (takeOffers (currentCycle s) s) =
              { acceptedState s [] with rdWaiting := s.rdWaiting + (currentCycle s).rd.toNat - 1 } := rfl
          have hsame : takeOffers (currentCycle s) s = acceptedState s [] := by rw [← hs [], ← ho]; rfl
          by_cases hrd : s.rdWaiting + (currentCycle s).rd.toNat = 0
          · right
            cases ht : (currentCycle s).tick with
            | true =>
              exact .inl ⟨rfl, rfl, rfl, rfl, hrd, rfl, by
                rw [hstep, acceptCycle, hq, ho, hn, if_neg (by simp [hrd]), ht, if_pos rfl, hsame]⟩
            | false =>
              exact .inr ⟨rfl, rfl, rfl, rfl, hrd, rfl, by
                rw [hstep, acceptCycle, hq, ho, hn, if_neg (by simp [hrd]), ht, if_neg (by simp), hsame]⟩
          · exact .inl ⟨rfl, rfl, rfl, rfl, hrd, by
              rw [hstep, acceptCycle, hq, ho, hn, if_pos hrd, ← hacc]⟩

/-! ## The kinds of cycle, one equation each -/

theorem ready_iff (s : State) : ready s = true ↔ s.booted = true ∧ s.busy = false := by
  simp [ready]

theorem step_reset {s : State} {p : ResetPoint} (h : (currentCycle s).rst = some p) :
    step s = .next (resetCycle p (takeOffers (currentCycle s) s)) := by
  simp only [step, runCycle, h]

theorem step_boot {s : State} (hb : s.booted = false) (hr : (currentCycle s).rst = none) :
    step s = .next (boot (takeOffers (currentCycle s) s)) := by
  have h1 : (takeOffers (currentCycle s) s).booted = false := hb
  simp only [step, runCycle, hr, h1, if_true]

theorem step_busy {s : State} (hb : s.booted = true) (hy : s.busy = true) (hr : (currentCycle s).rst = none) :
    step s = .next (qStep (takeOffers (currentCycle s) s)) := by
  have h1 : (takeOffers (currentCycle s) s).booted = true := hb
  have h2 : (takeOffers (currentCycle s) s).busy = true := hy
  simp only [step, runCycle, hr, h1, h2]
  rfl

theorem step_accept {s : State} (hb : s.booted = true) (hy : s.busy = false) (hr : (currentCycle s).rst = none) :
    step s = acceptCycle (currentCycle s).tick (takeOffers (currentCycle s) s) := by
  have h1 : (takeOffers (currentCycle s) s).booted = true := hb
  have h2 : (takeOffers (currentCycle s) s).busy = false := hy
  simp only [step, runCycle, hr, h1, h2]
  rfl

theorem step_takes {s : State} {r : Report} {rest : List Report} (h : takes s r rest) :
    step s = writeOp r (acceptedState s rest) := by
  obtain ⟨h1, h2, h3, h4⟩ := h
  have hw : (takeOffers (currentCycle s) s).wrQueue = r :: rest := h4
  rw [step_accept h2 h3 h1, acceptCycle, hw]
  rfl

/-- No report waits and a read does: the read is served. -/
theorem acceptCycle_read (tick : Bool) (s : State) (n : Nat) (h1 : s.wrQueue = []) (h2 : s.rdWaiting = n + 1) :
    acceptCycle tick s = .next (readOp (setHost [] n s)) := by
  simp only [acceptCycle, h1]
  rw [if_pos (by omega), h2]
  rfl

/-- Nothing waits: a tick is performed, or nothing is. -/
theorem acceptCycle_tick (tick : Bool) (s : State) (h1 : s.wrQueue = []) (h2 : s.rdWaiting = 0) :
    acceptCycle tick s = .next (if tick then tickStart s else s) := by
  simp only [acceptCycle, h1]
  rw [if_neg (by omega)]
  cases tick <;> rfl

/-- Steps compose. -/
theorem runFor_add (a b : Nat) (s : State) :
    runFor (a + b) s =
      match runFor a s with
      | .next t => runFor b t
      | .fault f => .fault f
      | .refused e => .refused e := by
  induction a generalizing s with
  | zero => simp [runFor]
  | succ a ih =>
    rw [show a + 1 + b = (a + b) + 1 by omega, runFor, runFor]
    cases step s with
    | next t => exact ih t
    | fault f => rfl
    | refused e => rfl

/-! ## A reset inside a SET_SERIAL -/

/-- A reset cuts nothing, or the SET_SERIAL the block takes in that cycle (70_reset_and_hazards.md R251). -/
theorem cutWrite_cases (p : ResetPoint) (s : State) :
    cutWrite p s = s ∨
    ∃ c r rest a, p.cut = some c ∧ s.wrQueue = r :: rest ∧ ready s = true ∧ decode r = .setSerial a ∧
      cutWrite p s = pairingSetCut a c (setHost rest s.rdWaiting s) := by
  unfold cutWrite
  cases p.cut with
  | none => exact .inl rfl
  | some c =>
    cases s.wrQueue with
    | nil => exact .inl rfl
    | cons r rest =>
      dsimp only
      cases ready s with
      | false => exact .inl rfl
      | true =>
        rcases instr_cases (decode r) with ⟨act, hd⟩ | ⟨a, hd⟩ | hd
        · left
          cases h : decode r <;> first | rfl | (rw [h] at hd; cases hd)
        · exact .inr ⟨c, r, rest, a, rfl, rfl, rfl, hd, by simp [hd]⟩
        · left
          rw [hd]
          rfl

/-! ## The scheduler -/

theorem tickWhole_idle {s : State} (h : s.rep = 0) : tickWhole s = emit .wdtKick s := if_pos h

theorem tickWhole_debouncing {s : State} (h : s.rep ≠ 0) (hd : s.deb ≠ 0) :
    tickWhole s = setJob s.cw s.rep (s.deb - 1) (emit .wdtKick s) :=
  (if_neg h).trans (if_pos hd)

theorem tickWhole_transmitting {s : State} (h : s.rep ≠ 0) (hd : s.deb = 0) :
    tickWhole s = setJob (if s.rep - 1 = 0 then 0 else s.cw) (s.rep - 1) s.deb
      (setOutputs false false false (emitAll (wave s.cw) (emit .wdtKick s))) :=
  (if_neg h).trans (if_neg fun hn => hn hd)

theorem tickStart_idle {s : State} (h : s.rep = 0) : tickStart s = emit .wdtKick s := if_pos h

theorem tickStart_debouncing {s : State} (h : s.rep ≠ 0) (hd : s.deb ≠ 0) :
    tickStart s = setJob s.cw s.rep (s.deb - 1) (emit .wdtKick s) :=
  (if_neg h).trans (if_pos hd)

theorem tickStart_transmitting {s : State} (h : s.rep ≠ 0) (hd : s.deb = 0) :
    tickStart s = frameStart s.cw (emit .wdtKick s) :=
  (if_neg h).trans (if_neg fun hn => hn hd)

theorem sched_eq_idle (s : State) : sched s = .idle ↔ s.rep = 0 := by
  unfold sched
  split
  · simp_all
  · split <;> simp_all

theorem sched_eq_debouncing (s : State) : sched s = .debouncing ↔ s.rep ≠ 0 ∧ s.deb ≠ 0 := by
  unfold sched
  split <;> simp_all

theorem sched_eq_transmitting (s : State) : sched s = .transmitting ↔ s.rep ≠ 0 ∧ s.deb = 0 := by
  unfold sched
  split <;> simp_all

/-! ## The operations -/

theorem runOp_tick {s : State} (h : ready s = true) : runOp .tick s = some (tickWhole s) := by
  simp [runOp, h]

theorem runOp_write {s : State} (r : Report) (h : ready s = true) :
    ∃ t, exec (decode r) s = .next t ∧ runOp (.write r) s = some (emit .ack t) := by
  obtain ⟨t, h1, h2⟩ := writeOp_next r s
  exact ⟨t, h1, by simp only [runOp, h, h2, if_true]⟩

theorem runOps_append (a b : List Op) (s : State) : runOps (a ++ b) s = (runOps a s).bind (runOps b) := by
  induction a generalizing s with
  | nil => rfl
  | cons o a ih =>
    simp only [List.cons_append, runOps]
    cases runOp o s with
    | none => rfl
    | some t => exact ih t

end Sys2Proof.Machine
end

