-- ==== Sys2Proof/Laws/Transmitter.lean ====
section
/-! SUPPORT. What one quantum of a frame can do, said once: the position moves on by one, the events still to come lose
those emitted, the job is untouched until the frame is done (42_rf_transmitter.md R141, R142). -/

namespace Sys2Proof.Machine

/-- The quantum of the frame the transmitter is in: 0 right after FrameStart, 246 in the last one. -/
def position (s : State) : Nat :=
  match s.txs with
  | .idle => 247
  | .bitHi => (24 - s.bitcnt) * 4 + (holdQuanta .bitHi s.cur - s.qcnt)
  | .bitLo => (24 - s.bitcnt) * 4 + holdQuanta .bitHi s.cur + (holdQuanta .bitLo s.cur - s.qcnt)
  | .sync => 96
  | .gap => 97 + (150 - s.qcnt)

/-- The hold of a transmitter state as an event. -/
def holdEvent (txs : TxState) (cur level : Bool) : Event := .rf level (holdQuanta txs cur * 200)

/-- The events of the frame that are still to come, the hold in progress first. -/
def remaining (s : State) : List Event :=
  match s.txs with
  | .idle => []
  | .bitHi =>
    [holdEvent .bitHi s.cur true, holdEvent .bitLo s.cur false] ++ symbols s.cw (s.bitcnt - 1) ++
      [.rf true 200, .critOff, .wdtKick, .rf false 30000]
  | .bitLo =>
    [holdEvent .bitLo s.cur false] ++ symbols s.cw (s.bitcnt - 1) ++ [.rf true 200, .critOff, .wdtKick, .rf false 30000]
  | .sync => [.rf true 200, .critOff, .wdtKick, .rf false 30000]
  | .gap => [.rf false 30000]

/-- A symbol is its high hold and its low hold (30_encoding.md R91, 42_rf_transmitter.md R141). -/
theorem symbol_eq (b : Bool) : symbol b = [holdEvent .bitHi b true, holdEvent .bitLo b false] := by
  cases b <;> rfl

/-- Everything a quantum leaves alone (42_rf_transmitter.md R130). -/
structure QuantumFrame (s t : State) : Prop where
  addr : t.addr = s.addr
  mask : t.mask = s.mask
  deb : t.deb = s.deb
  booted : t.booted = s.booted
  nv : t.nv = s.nv
  wrQueue : t.wrQueue = s.wrQueue
  rdWaiting : t.rdWaiting = s.rdWaiting
  env : t.env = s.env
  freeIdx : t.freeIdx = s.freeIdx

theorem loadBit_frame (s : State) : QuantumFrame s (loadBit s) := by constructor <;> rfl

theorem holdEnd_frame (s : State) : QuantumFrame s (holdEnd s) := by
  unfold holdEnd
  cases s.txs with
  | bitLo => dsimp only; split <;> constructor <;> rfl
  | _ => constructor <;> rfl

theorem qStep_frame (s : State) : QuantumFrame s (qStep s) := by
  unfold qStep
  dsimp only
  split
  · obtain ⟨h1, h2, h3, h4, h5, h6, h7, h8, h9⟩ := holdEnd_frame (setTx s.txs s.shreg s.cur s.bitcnt (s.qcnt - 1) s)
    exact ⟨h1, h2, h3, h4, h5, h6, h7, h8, h9⟩
  · constructor <;> rfl

/-- The bit that leaves SHREG next: with k + 1 symbols to go it is bit k of CW (42_rf_transmitter.md R132). -/
theorem shreg_top (cw : Codeword) (k : Nat) (hk : k < 24) : (cw <<< (24 - (k + 1))).getLsbD 23 = cw.getLsbD k := by
  have h1 : 23 - (24 - (k + 1)) = k := by omega
  rw [BitVec.getLsbD_shiftLeft, h1]
  simp

theorem shreg_shift (cw : Codeword) (k : Nat) (hk : k < 24) : (cw <<< (24 - (k + 1))) <<< 1 = cw <<< (25 - (k + 1)) := by
  rw [← BitVec.shiftLeft_add]
  congr 1
  omega

/-- LoadBit with k + 1 symbols to go. -/
theorem loadBit_frameInv (s : State) (k : Nat) (hk : k < 24) (hb : s.bitcnt = k + 1)
    (hs : s.shreg = s.cw <<< (24 - (k + 1))) (hc : s.crit = true) :
    FrameInv (loadBit s) ∧ position (loadBit s) = (23 - k) * 4 ∧
    remaining (loadBit s) = symbol (s.cw.getLsbD k) ++ symbols s.cw k ++ [.rf true 200, .critOff, .wdtKick, .rf false 30000] ∧
    (loadBit s).trace = s.trace ∧ (loadBit s).cw = s.cw ∧ (loadBit s).rep = s.rep ∧ (loadBit s).busy = s.busy := by
  have heq : loadBit s = setOutputs true s.crit s.busy (setTx .bitHi (s.cw <<< (25 - (k + 1))) (s.cw.getLsbD k) s.bitcnt
      (holdQuanta .bitHi (s.cw.getLsbD k)) s) := by
    simp only [loadBit]
    rw [hs, shreg_top s.cw k hk, shreg_shift s.cw k hk]
  have hq : 1 ≤ holdQuanta .bitHi (s.cw.getLsbD k) := by cases s.cw.getLsbD k <;> decide
  rw [heq]
  refine ⟨⟨by simp, by simp, by simp [hc], ⟨hq, Nat.le_refl _⟩, fun _ => ?_, by simp⟩, ?_, ?_, rfl, rfl, rfl, rfl⟩
  · have hb' : (setOutputs true s.crit s.busy (setTx .bitHi (s.cw <<< (25 - (k + 1))) (s.cw.getLsbD k) s.bitcnt
      (holdQuanta .bitHi (s.cw.getLsbD k)) s)).bitcnt = k + 1 := hb
    rw [hb']
    exact ⟨by omega, by omega, rfl, rfl⟩
  · simp [position, hb]
  · simp [remaining, hb, symbol_eq]

/-- FrameStart: the first quantum of the frame of CW, CritOn emitted, all of the frame to come
(42_rf_transmitter.md R141). -/
theorem frameStart_frameInv (s : State) :
    FrameInv (frameStart s.cw s) ∧ position (frameStart s.cw s) = 0 ∧
    (frameStart s.cw s).trace = s.trace ++ [.critOn] ∧ [.critOn] ++ remaining (frameStart s.cw s) = wave s.cw ∧
    (frameStart s.cw s).cw = s.cw ∧ (frameStart s.cw s).rep = s.rep ∧ (frameStart s.cw s).busy = true ∧
    QuantumFrame s (frameStart s.cw s) := by
  obtain ⟨h1, h2, h3, h4, h5, h6, h7⟩ := loadBit_frameInv
    (emit .critOn (setOutputs s.rfOut true true (setTx s.txs s.cw s.cur Config.txBits s.qcnt s))) 23 (by omega) rfl
    (by simp) rfl
  refine ⟨h1, h2, h4, ?_, h5, h6, h7, by constructor <;> rfl⟩
  show [.critOn] ++ remaining (loadBit _) = _
  rw [h3]
  simp [wave, waveOf, symbols, Config.txBits, Config.tSync, Config.tGap]

/-- The frame goes on, one quantum further: what is emitted is what no longer remains. -/
def FrameGoesOn (s t : State) : Prop :=
  ∃ es, FrameInv t ∧ t.busy = true ∧ position s < 246 ∧ position t = position s + 1 ∧ t.trace = s.trace ++ es ∧
    remaining s = es ++ remaining t ∧ t.cw = s.cw ∧ t.rep = s.rep

/-- The frame is done: the gap recorded, the levels low, REP one less, CW cleared with the last frame
(42_rf_transmitter.md R141, 44_scheduler.md R185). -/
def FrameEnds (s t : State) : Prop :=
  position s = 246 ∧ t.busy = false ∧ t.rfOut = false ∧ t.crit = false ∧ t.txs = .idle ∧
    t.trace = s.trace ++ [.rf false 30000] ∧ remaining s = [.rf false 30000] ∧ t.rep = s.rep - 1 ∧
    t.cw = (if s.rep - 1 = 0 then 0 else s.cw) ∧ t.bitcnt = s.bitcnt ∧ t.qcnt = 0

theorem frameInv_low {s : State} (hf : FrameInv s) (h : s.txs = .bitLo ∨ s.txs = .gap) : s.rfOut = false := by
  cases hr : s.rfOut with
  | false => rfl
  | true => rcases hf.level.mp hr with h' | h' <;> rcases h with h | h <;> simp [h] at h'

/-- The hold in progress has more than one quantum left. -/
theorem qStep_hold (s : State) (hf : FrameInv s) (hb : s.busy = true) (hq : s.qcnt ≠ 1) : FrameGoesOn s (qStep s) := by
  obtain ⟨hrun, hlev, hwin, ⟨hq1, hq2⟩, hbits, hafter⟩ := hf
  have hq' : qStep s = setTx s.txs s.shreg s.cur s.bitcnt (s.qcnt - 1) s :=
    if_neg (show ¬ s.qcnt - 1 = 0 by omega)
  rw [hq']
  refine ⟨[], ⟨hrun, hlev, hwin, ⟨?_, ?_⟩, hbits, hafter⟩, hb, ?_, ?_, by simp, ?_, rfl, rfl⟩
  · show 1 ≤ s.qcnt - 1
    omega
  · show s.qcnt - 1 ≤ holdQuanta s.txs s.cur
    omega
  · cases htx : s.txs with
    | idle => exact absurd htx hrun
    | bitHi =>
      have h1 := (hbits (.inl htx)).1
      simp only [position, htx]
      cases s.cur <;> simp [holdQuanta] <;> omega
    | bitLo =>
      have h1 := (hbits (.inr htx)).1
      simp only [position, htx]
      cases s.cur <;> simp [holdQuanta] <;> omega
    | sync => simp [position, htx]
    | gap => simp only [position, htx]; omega
  · cases htx : s.txs with
    | idle => exact absurd htx hrun
    | bitHi => rw [htx] at hq2; simp only [position, setTx_txs, setTx_bitcnt, setTx_cur, setTx_qcnt, htx]; omega
    | bitLo => rw [htx] at hq2; simp only [position, setTx_txs, setTx_bitcnt, setTx_cur, setTx_qcnt, htx]; omega
    | sync => rw [htx] at hq2; simp only [holdQuanta] at hq2; omega
    | gap =>
      rw [htx] at hq2
      simp only [holdQuanta, Config.gapQuanta] at hq2
      simp only [position, setTx_txs, setTx_qcnt, htx]
      omega
  · simp [remaining]

/-- The high hold of a symbol ends. -/
theorem qStep_bitHi (s : State) (hf : FrameInv s) (hb : s.busy = true) (hq : s.qcnt = 1) (htx : s.txs = .bitHi) :
    FrameGoesOn s (qStep s) := by
  have hl : s.rfOut = true := hf.level.mpr (.inl htx)
  have hc : s.crit = true := hf.window.mpr (by simp [htx])
  obtain ⟨hb1, hb2, hsh, hcur⟩ := hf.bits (.inl htx)
  have hlo : 1 ≤ holdQuanta .bitLo s.cur := by cases s.cur <;> decide
  have heq : qStep s = setOutputs false true true (setTx .bitLo s.shreg s.cur s.bitcnt (holdQuanta .bitLo s.cur)
      (emit (holdEvent .bitHi s.cur true) s)) := by
    simp [qStep, hq, holdEnd, htx, emitHold, holdEvent, Config.quantum, hl, hc, hb, setOutputs, setTx, emit]
  rw [heq]
  refine ⟨[holdEvent .bitHi s.cur true], ⟨by simp, by simp, by simp, ⟨hlo, Nat.le_refl _⟩,
    fun _ => ⟨hb1, hb2, hsh, hcur⟩, by simp⟩, rfl, ?_, ?_, rfl, ?_, rfl, rfl⟩
  · simp only [position, htx]
    cases s.cur <;> simp [holdQuanta] <;> omega
  · simp only [position, htx, setOutputs_txs, setTx_txs, setOutputs_bitcnt, setTx_bitcnt, setOutputs_cur, setTx_cur,
      setOutputs_qcnt, setTx_qcnt, hq]
    cases s.cur <;> simp [holdQuanta]
  · simp [remaining, htx]

/-- The low hold of a symbol ends: the next symbol, or the sync pulse. -/
theorem qStep_bitLo (s : State) (hf : FrameInv s) (hb : s.busy = true) (hq : s.qcnt = 1) (htx : s.txs = .bitLo) :
    FrameGoesOn s (qStep s) := by
  have hl : s.rfOut = false := frameInv_low hf (.inl htx)
  have hc : s.crit = true := hf.window.mpr (by simp [htx])
  obtain ⟨hb1, hb2, hsh, hcur⟩ := hf.bits (.inr htx)
  obtain ⟨k, hk⟩ : ∃ k, s.bitcnt = k + 1 := ⟨s.bitcnt - 1, by omega⟩
  have hpos : position s = (23 - k) * 4 + 3 := by
    simp only [position, htx, hq, hk]
    cases s.cur <;> simp [holdQuanta]
  have heq : qStep s =
      let u := setTx .bitLo s.shreg s.cur k 0 (emit (holdEvent .bitLo s.cur false) s)
      if k ≠ 0 then loadBit u else setOutputs true true true (setTx .sync s.shreg s.cur k 1 u) := by
    simp [qStep, hq, holdEnd, htx, emitHold, holdEvent, Config.quantum, hl, hc, hb, hk, setOutputs, setTx, emit, holdQuanta]
  rw [heq]
  cases k with
  | zero =>
    have hsz : s.shreg = 0 := by rw [hsh, hk]; simp
    rw [hk] at hcur
    refine ⟨[holdEvent .bitLo s.cur false], ⟨by simp, by simp, by simp, ⟨by simp, by simp [holdQuanta]⟩, by simp,
      fun _ => ⟨rfl, hsz, hcur⟩⟩, rfl, by omega, by rw [hpos]; simp [position], rfl, ?_, rfl, rfl⟩
    simp [remaining, htx, hk, symbols]
  | succ k =>
    obtain ⟨h1, h2, h3, h4, h5, h6, h7⟩ := loadBit_frameInv
      (setTx .bitLo s.shreg s.cur (k + 1) 0 (emit (holdEvent .bitLo s.cur false) s)) k (by omega) rfl
      (by show s.shreg = s.cw <<< _; rw [hsh, hk]; congr 1; omega) hc
    refine ⟨[holdEvent .bitLo s.cur false], h1, by rw [← hb]; exact h7, by omega, ?_, h4, ?_, h5, h6⟩
    · simp only [ne_eq, Nat.add_eq_zero_iff, one_ne_zero, and_false, not_false_eq_true, if_true]
      rw [h2, hpos]
      omega
    · simp only [ne_eq, Nat.add_eq_zero_iff, one_ne_zero, and_false, not_false_eq_true, if_true]
      rw [h3]
      simp [remaining, htx, hk, symbols]

/-- The sync pulse ends: the critical window closes, the watchdog is refreshed, the gap begins. -/
theorem qStep_sync (s : State) (hf : FrameInv s) (hb : s.busy = true) (hq : s.qcnt = 1) (htx : s.txs = .sync) :
    FrameGoesOn s (qStep s) := by
  have hl : s.rfOut = true := hf.level.mpr (.inr htx)
  have heq : qStep s = emitAll [.rf true 200, .critOff, .wdtKick]
      (setOutputs false false true (setTx .gap s.shreg s.cur s.bitcnt 150 s)) := by
    simp [qStep, hq, holdEnd, htx, emitHold, Config.quantum, Config.gapQuanta, hl, hb, setOutputs, setTx, emit, emitAll,
      holdQuanta]
  rw [heq]
  refine ⟨[.rf true 200, .critOff, .wdtKick], ⟨by simp, by simp, by simp, ⟨by simp, by simp [holdQuanta, Config.gapQuanta]⟩,
    by simp, fun _ => hf.after (.inl htx)⟩, rfl, by simp [position, htx], by simp [position, htx], rfl, ?_, rfl, rfl⟩
  simp [remaining, htx]

/-- The gap ends, and the frame with it. -/
theorem qStep_gap (s : State) (hf : FrameInv s) (hq : s.qcnt = 1) (htx : s.txs = .gap) : FrameEnds s (qStep s) := by
  have hl : s.rfOut = false := frameInv_low hf (.inr htx)
  have hc : s.crit = false := by
    cases h : s.crit with
    | false => rfl
    | true => exact absurd htx (hf.window.mp h)
  have heq : qStep s = setJob (if s.rep - 1 = 0 then 0 else s.cw) (s.rep - 1) s.deb (emit (.rf false 30000)
      (setOutputs false false false (setTx .idle s.shreg s.cur s.bitcnt 0 s))) := by
    simp [qStep, hq, holdEnd, htx, emitHold, Config.quantum, Config.gapQuanta, hl, hc, setOutputs, setTx, emit, holdQuanta,
      frameDone, setJob]
  rw [heq]
  exact ⟨by simp [position, htx, hq], rfl, rfl, rfl, rfl, rfl, by simp [remaining, htx], rfl, rfl, rfl, rfl⟩

/-- One quantum of a frame: it goes on, or it is done. -/
theorem qStep_cases (s : State) (hf : FrameInv s) (hb : s.busy = true) :
    FrameGoesOn s (qStep s) ∨ FrameEnds s (qStep s) := by
  by_cases hq : s.qcnt = 1
  · cases htx : s.txs with
    | idle => exact absurd htx hf.running
    | bitHi => exact .inl (qStep_bitHi s hf hb hq htx)
    | bitLo => exact .inl (qStep_bitLo s hf hb hq htx)
    | sync => exact .inl (qStep_sync s hf hb hq htx)
    | gap => exact .inr (qStep_gap s hf hq htx)
  · exact .inl (qStep_hold s hf hb hq)

/-- The job changes only with the end of the frame, in any state. -/
theorem holdEnd_job (s : State) (h : (holdEnd s).busy = true) : (holdEnd s).rep = s.rep ∧ (holdEnd s).cw = s.cw := by
  revert h
  unfold holdEnd
  cases s.txs with
  | bitLo => dsimp only; split <;> intro _ <;> exact ⟨rfl, rfl⟩
  | gap => intro h; cases h
  | _ => intro _; exact ⟨rfl, rfl⟩

theorem qStep_job (s : State) (h : (qStep s).busy = true) : (qStep s).rep = s.rep ∧ (qStep s).cw = s.cw := by
  revert h
  unfold qStep
  dsimp only
  split
  · exact holdEnd_job _
  · intro _
    exact ⟨rfl, rfl⟩

/-- The longest hold is the gap. Its length is given as a number, since the kernel is slow to multiply the hold out. -/
theorem holdQuanta_le (txs : TxState) (cur : Bool) : holdQuanta txs cur ≤ 150 := by
  cases txs <;> cases cur <;> decide

@[simp] theorem holdQuanta_gap (cur : Bool) : holdQuanta .gap cur = 150 := by cases cur <;> rfl

@[simp] theorem holdQuanta_sync (cur : Bool) : holdQuanta .sync cur = 1 := rfl

/-- The hold in progress is the first of the events still to come, at the level rf_out has. -/
theorem remaining_head (s : State) (hi : FrameInv s) :
    ∃ rest, remaining s = .rf s.rfOut (holdQuanta s.txs s.cur * 200) :: rest := by
  cases htx : s.txs with
  | idle => exact absurd htx hi.running
  | bitHi =>
    have hr : s.rfOut = true := hi.level.mpr (.inl htx)
    exact ⟨_, by simp only [remaining, htx, hr, holdEvent]; rfl⟩
  | bitLo =>
    have hr : s.rfOut = false := frameInv_low hi (.inl htx)
    exact ⟨_, by simp only [remaining, htx, hr, holdEvent]; rfl⟩
  | sync =>
    have hr : s.rfOut = true := hi.level.mpr (.inr htx)
    exact ⟨[.critOff, .wdtKick, .rf false 30000], by simp [remaining, htx, hr]⟩
  | gap =>
    have hr : s.rfOut = false := frameInv_low hi (.inr htx)
    exact ⟨[], by simp [remaining, htx, hr]⟩

end Sys2Proof.Machine
end

