-- ==== Sys2Proof/Tests/Slice0.lean ====
section
/-! SUPPORT. Tests with expected values from 95_test_vectors.md (or worked by hand from the rule named), and one witness for
the hypotheses of each statement, for each of its clauses. -/

namespace Sys2Proof.Tests

open Sys2Proof Sys2Proof.Machine

/-! ## Small states -/

/-- The start state of V-D1: ADDR = 0x12345, MASK = 0b0101, no job, booted. -/
def start : State := { State.reset with addr := 0x12345, mask := 0b0101, booted := true }

/-- A job pending: the state of V-D3 with REP and DEB as given. -/
def pending (rep deb : Nat) : State :=
  { State.reset with addr := 0x12345, mask := 0b1000, cw := 0x123453, rep := rep, deb := deb, booted := true }

/-- A report offered in the current cycle. -/
def offering (r : Report) (s : State) : State := { s with env := [⟨none, some r, false, false⟩] }

/-- The state of an outcome; the state itself where there is none. -/
def resultOr (s : State) : Host.Outcome State Fault Refusal → State
  | .next t => t
  | .fault _ => s
  | .refused _ => s

/-- V-T8 at j quanta after FrameStart of 0x123457. -/
def inFrame (j : Nat) : State :=
  resultOr start (runFor (j + 1)
    { pending 10 0 with cw := 0x123457, trace := [], env := tickCycle :: List.replicate j EnvCycle.quiet })

/-- FA 41 42 43 44 45 00 00: SET_SERIAL 0xABCDE. -/
def setSerialReport : Report := ⟨0xFA, 0x41, 0x42, 0x43, 0x44, 0x45, 0x00, 0x00⟩

/-- FF 02 00 00 00 00 00 00: ON 2. -/
def on2Report : Report := ⟨0xFF, 0x02, 0, 0, 0, 0, 0, 0⟩

/-! ## Well-formedness: the ill-formed terms (`Instr` has none) -/

theorem test_line_on_256_refused : (Line.on 256).wf = false := by decide
theorem test_line_on_255_accepted : (Line.on 255).wf = true := by decide
theorem test_line_off_256_refused : (Line.off 256).wf = false := by decide
theorem test_line_off_0_accepted : (Line.off 0).wf = true := by decide
theorem test_line_setSerial_four_characters_refused : (Line.setSerial [0x31, 0x32, 0x33, 0x34]).wf = false := by decide
theorem test_line_setSerial_six_characters_refused :
    (Line.setSerial [0x31, 0x32, 0x33, 0x34, 0x35, 0x36]).wf = false := by decide
theorem test_line_setSerial_five_characters_accepted :
    (Line.setSerial [0x31, 0x32, 0x47, 0x34, 0x35]).wf = true := by decide

/-! ## Decoding: words written out from 30_encoding.md R80 to R87; V-D1, V-D3 -/

theorem test_decode_allOn : decodeTableWord 8 0b11111110 = some .allOn := by decide
theorem test_decode_allOff : decodeTableWord 8 0b11111100 = some .allOff := by decide
theorem test_decode_on1 : decodeTableWord 16 0b0000000111111111 = some .on1 := by decide
theorem test_decode_on2 : decodeTableWord 16 0b0000001011111111 = some .on2 := by decide
theorem test_decode_on3 : decodeTableWord 16 0b0000001111111111 = some .on3 := by decide
theorem test_decode_on4 : decodeTableWord 64 0xFFEEDDCCBBAA04FF = some .on4 := by decide
theorem test_decode_off1 : decodeTableWord 16 0b0000000111111101 = some .off1 := by decide
theorem test_decode_off2 : decodeTableWord 16 0b0000001011111101 = some .off2 := by decide
theorem test_decode_off3 : decodeTableWord 16 0b0000001111111101 = some .off3 := by decide
theorem test_decode_off4 : decodeTableWord 16 0b0000010011111101 = some .off4 := by decide
theorem test_decode_setSerial : decodeTableWord 64 0x00004139306646FA = some (.setSerial 0xFF09A) := by decide
theorem test_decode_setSerial_lower_case :
    decode ⟨0xFA, 0x61, 0x62, 0x63, 0x64, 0x65, 0x99, 0x77⟩ = .setSerial 0xABCDE := by decide
theorem test_decode_ignored_opcode : decodeTableWord 64 0x00000000000002FB = some .ignored := by decide
theorem test_decode_ignored_index_5 : decodeTableWord 16 0x05FF = some .ignored := by decide
theorem test_decode_ignored_index_character : decode ⟨0xFD, 0x31, 0, 0, 0, 0, 0, 0⟩ = .ignored := by decide
theorem test_decode_ignored_digit : decode ⟨0xFA, 0x31, 0x32, 0x47, 0x34, 0x35, 0, 0⟩ = .ignored := by decide
theorem test_decode_ignored_four_digits : decode ⟨0xFA, 0x31, 0x32, 0x33, 0x34, 0x00, 0, 0⟩ = .ignored := by decide
/-- 30_encoding.md R87 at both ends of its three ranges, and just outside them. -/
theorem test_hexVal_ends :
    hexVal 0x30 = some 0 ∧ hexVal 0x39 = some 9 ∧ hexVal 0x41 = some 10 ∧ hexVal 0x46 = some 15 ∧ hexVal 0x61 = some 10 ∧
    hexVal 0x66 = some 15 ∧ hexVal 0x2F = none ∧ hexVal 0x3A = none ∧ hexVal 0x40 = none ∧ hexVal 0x47 = none ∧
    hexVal 0x60 = none ∧ hexVal 0x67 = none := by decide
theorem test_decode_seven_bytes :
    (decodeBytes [0xFE, 0, 0, 0, 0, 0, 0]).toOption = none := by decide
theorem test_line_off_49 : (Line.off 49).ops = [.write ⟨0xFD, 0x31, 0, 0, 0, 0, 0, 0⟩] := by decide

/-! ## The commands: V-D1 (the debounce is the parameter, whatever its value) -/

theorem test_allOn : exec .allOn start =
    .next { start with mask := 0b1111, cw := 0x12345D, rep := 10, deb := Config.debounceOn } := rfl
theorem test_allOff : exec .allOff start =
    .next { start with mask := 0b0000, cw := 0x12345C, rep := 10, deb := Config.debounceOff } := rfl
theorem test_on1 : exec .on1 start =
    .next { start with mask := 0b0101, cw := 0x12345F, rep := 10, deb := Config.debounceOn } := rfl
theorem test_on2 : exec .on2 start =
    .next { start with mask := 0b0111, cw := 0x123457, rep := 10, deb := Config.debounceOn } := rfl
theorem test_on3 : exec .on3 start =
    .next { start with mask := 0b0101, cw := 0x12345B, rep := 10, deb := Config.debounceOn } := rfl
theorem test_on4 : exec .on4 start =
    .next { start with mask := 0b1101, cw := 0x123453, rep := 10, deb := Config.debounceOn } := rfl
theorem test_off1 : exec .off1 start =
    .next { start with mask := 0b0100, cw := 0x12345E, rep := 10, deb := Config.debounceOff } := rfl
theorem test_off2 : exec .off2 start =
    .next { start with mask := 0b0101, cw := 0x123456, rep := 10, deb := Config.debounceOff } := rfl
theorem test_off3 : exec .off3 start =
    .next { start with mask := 0b0001, cw := 0x12345A, rep := 10, deb := Config.debounceOff } := rfl
theorem test_off4 : exec .off4 start =
    .next { start with mask := 0b0101, cw := 0x123452, rep := 10, deb := Config.debounceOff } := rfl

/-- V-D1, V-P1: the address, and a record on each of the three offsets. -/
theorem test_setSerial :
    (resultOr start (exec (.setSerial 0xABCDE) start)).addr = 0xABCDE ∧
    Memory.readBytes (resultOr start (exec (.setSerial 0xABCDE) start)).nv 0x40 3 = [0xDE, 0xBC, 0x0A] ∧
    Memory.readBytes (resultOr start (exec (.setSerial 0xABCDE) start)).nv 0x80 3 = [0xDE, 0xBC, 0x0A] := by decide

/-- V-D4: a pending job keeps its codeword. V-P1: the record of 0xFFFFF is FF FF 0F. -/
theorem test_setSerial_pending :
    (resultOr start (exec (.setSerial 0xFFFFF) (pending 7 0))).cw = 0x123453 ∧
    (resultOr start (exec (.setSerial 0xFFFFF) (pending 7 0))).rep = 7 ∧
    Memory.readBytes (resultOr start (exec (.setSerial 0xFFFFF) (pending 7 0))).nv 0x00 3 = [0xFF, 0xFF, 0x0F] := by decide

/-- V-D3: the state is exactly the start state, and the trace gains one Ack. -/
theorem test_ignored : runOp (.write ⟨0xFB, 0, 0, 0, 0, 0, 0, 0⟩) (pending 10 2) =
    some { pending 10 2 with trace := [.reset, .ack] } := by decide

/-- A report placed on the port is taken by the very next step, from reset too: the mask of ALL_ON and its Ack
(43_command_decoder.md R160, R161). -/
theorem test_step_after_reset :
    (resultOr start (step (State.withFetchWord State.reset 8 0xFE))).mask = 0b1111 ∧
    (resultOr start (step (State.withFetchWord State.reset 8 0xFE))).trace = [.reset, .nvRd 0 3, .ack] := by decide

/-! ## The Pairing Store, READ, the scheduler, the transmitter, reset -/

/-- V-P2: a foreign record loses its four high bits; one zero bit defeats the erased test. -/
theorem test_load_foreign : loadedAddr [(0, 0xDE), (1, 0xBC), (2, 0xFA)] = 0xABCDE := by decide
theorem test_load_not_erased : loadedAddr [(0, 0xFE)] = 0xFFFFE := by decide
theorem test_load_erased : loadedAddr [(0x40, 0x45), (0x41, 0x23), (0x42, 0x01)] = Config.defaultAddr := rfl

/-- 45_read_report.md R200, the rows of 2.6. -/
theorem test_read_report : readReport { start with addr := 0x0009A, mask := 0b1011 } =
    ⟨0x30, 0x30, 0x30, 0x39, 0x41, 0x00, 0x00, 0x0B⟩ := by decide

/-- V-S1, T3: the tick that ends the debounce sends no frame. -/
theorem test_tick_last_debounce :
    runOp .tick (pending 10 1) = some { pending 10 0 with trace := [.reset, .wdtKick] } := by decide
/-- V-S1, T13: the last frame clears CW. -/
theorem test_tick_last_frame :
    (tickWhole (pending 1 0)).cw = 0 ∧ (tickWhole (pending 1 0)).rep = 0 ∧
    (tickWhole (pending 1 0)).trace.length = 55 := by decide

/-- V-T1: the first eight durations of 0x123457 and of V-T4 0xABCDE7. -/
theorem test_wave_first_nibble :
    (durations (wave 0x123457)).take 8 = [200, 600, 200, 600, 200, 600, 600, 200] ∧
    (durations (wave 0xABCDE7)).take 8 = [600, 200, 200, 600, 600, 200, 200, 600] := by decide

/-- V-T8, j = 13. -/
theorem test_state_machine_13 :
    (inFrame 13).txs = .bitHi ∧ (inFrame 13).qcnt = 2 ∧ (inFrame 13).bitcnt = 21 ∧ (inFrame 13).cur = true ∧
    (inFrame 13).shreg = 0x234570 ∧ (inFrame 13).rfOut = true := by decide

/-- V-T9: the hold a reset cuts is recorded with the time it lasted. -/
theorem test_reset_mid_hold :
    (resultOr start (step { inFrame 13 with env := [resetCycleAt 99] })).trace =
      [.wdtKick, .critOn, .rf true 200, .rf false 600, .rf true 200, .rf false 600, .rf true 200, .rf false 600,
        .rf true 300, .reset] := by decide

/-- 70_reset_and_hazards.md R251: one copy complete, the next boot loads it. -/
theorem test_reset_during_setSerial :
    loadedAddr (pairingSetCut 0xABCDE ⟨1, false⟩ start).nv = 0xABCDE ∧
    (pairingSetCut 0xABCDE ⟨1, false⟩ start).addr = 0x12345 ∧
    Memory.readBytes (pairingSetCut 0xABCDE ⟨1, false⟩ start).nv 0x40 3 = [0xFF, 0xFF, 0xFF] := by decide

/-! ## Witnesses: the hypotheses of the statements are met -/

theorem witness_DecodeOfEncodeIsTheInstruction : (Instr.setSerial 0xABCDE).wf = true := by decide

/-- Two reports that agree on the examined bytes and on no other, for each of the five opcodes. -/
theorem witness_UnexaminedBytesDoNotMatter :
    (∀ o ∈ [(0xFE : Byte), 0xFC], (Report.mk o 0 0 0 0 0 0 0).b0 = (Report.mk o 1 2 3 4 5 6 7).b0) ∧
    (∀ o ∈ [(0xFF : Byte), 0xFD], (Report.mk o 4 0 0 0 0 0 0).b0 = (Report.mk o 4 2 3 4 5 6 7).b0) ∧
    (Report.mk 0xFA 0x31 0x31 0x31 0x31 0x31 0 0).b5 = (Report.mk 0xFA 0x31 0x31 0x31 0x31 0x31 6 7).b5 := by decide

theorem witness_EncoderIsInjective : encodeCodeword 0xFFFFF (.on .s1) = encodeCodeword 0xFFFFF (.on .s1) := rfl

theorem witness_AllOnAllOffResult : (shortReport 0xFE 0).b0 = 0xFE ∧ (shortReport 0xFC 0).b0 = 0xFC := by decide

/-- The four indices, and the indices at the ends of the two invalid ranges. -/
theorem witness_OnResult : (shortReport 0xFF 1).b1 = 1 ∧ (shortReport 0xFF 2).b1 = 2 ∧ (shortReport 0xFF 3).b1 = 3 ∧
    (shortReport 0xFF 4).b1 = 4 ∧ (shortReport 0xFF 0).b1 = 0 ∧ 4 < (shortReport 0xFF 5).b1 ∧
    4 < (shortReport 0xFF 255).b1 ∧ (shortReport 0xFF 5).b0 = 0xFF := by decide
theorem witness_OffResult : (shortReport 0xFD 1).b1 = 1 ∧ (shortReport 0xFD 2).b1 = 2 ∧ (shortReport 0xFD 3).b1 = 3 ∧
    (shortReport 0xFD 4).b1 = 4 ∧ (shortReport 0xFD 0).b1 = 0 ∧ 4 < (shortReport 0xFD 5).b1 ∧
    4 < (shortReport 0xFD 255).b1 ∧ (shortReport 0xFD 5).b0 = 0xFD := by decide

theorem witness_SetSerialResult : Memory.wf start.nv ∧
    Memory.wf (resultOr start (exec (.setSerial 0xFFFFF) start)).nv := by decide

/-- A report of each kind of IGNORED, and a block that takes one with a job pending. -/
theorem witness_IgnoredChangesNothing :
    ((0xFB : Byte) ≠ 0xFE ∧ (0xFB : Byte) ≠ 0xFC ∧ (0xFB : Byte) ≠ 0xFF ∧ (0xFB : Byte) ≠ 0xFD ∧ (0xFB : Byte) ≠ 0xFA) ∧
    ((shortReport 0xFD 0).b0 = 0xFD ∧ (shortReport 0xFD 0).b1 = 0) ∧
    parseAddr 0x31 0x32 0x33 0x34 0x47 0 0 = none ∧
    decode (shortReport 0xFF 5) = .ignored := by decide
theorem witness_IgnoredChangesNothing_taken :
    takes (offering (shortReport 0xFF 5) (pending 10 2)) (shortReport 0xFF 5) [] := ⟨rfl, rfl, rfl, rfl⟩

theorem witness_RepeatedCommandIsIdempotent :
    isSocketCommand .on2 ∧ ∃ t, exec .on2 (pending 7 0) = .next t := ⟨by unfold isSocketCommand; decide, _, rfl⟩

theorem witness_NewJobReplacesTheOld : isSocketCommand .off4 ∧ isSocketCommand .allOn := by
  unfold isSocketCommand; decide

theorem witness_NewAddressIsForLaterCommands :
    ∃ t u, exec (.setSerial 0xABCDE) (pending 7 0) = .next t ∧ isSocketCommand .off1 ∧ exec .off1 t = .next u :=
  ⟨_, _, rfl, by unfold isSocketCommand; decide, rfl⟩

theorem witness_StepRunsTheReportOnThePort :
    takes (offering on2Report start) on2Report [] ∧
    takes { start with wrQueue := [setSerialReport, on2Report] } setSerialReport [on2Report] ∧
    decodeTableWord 16 0x02FF = some .on2 := ⟨⟨rfl, rfl, rfl, rfl⟩, ⟨rfl, rfl, rfl, rfl⟩, by decide⟩

/-- A SET_SERIAL, a socket command and an IGNORED report are taken. -/
theorem witness_EveryWriteEndsWithAck :
    takes (offering setSerialReport start) setSerialReport [] ∧ takes (offering on2Report start) on2Report [] ∧
    takes (offering (shortReport 0 0) start) (shortReport 0 0) [] :=
  ⟨⟨rfl, rfl, rfl, rfl⟩, ⟨rfl, rfl, rfl, rfl⟩, ⟨rfl, rfl, rfl, rfl⟩⟩

/-- Idle, debouncing with the last tick, transmitting with the last frame and before it. -/
theorem witness_TickDoesOneThing :
    ready start = true ∧ start.rep = 0 ∧ ready (pending 10 1) = true ∧ (pending 10 1).rep ≠ 0 ∧ (pending 10 1).deb ≠ 0 ∧
    ready (pending 1 0) = true ∧ (pending 1 0).rep ≠ 0 ∧ (pending 1 0).deb = 0 ∧ (pending 2 0).rep ≠ 1 := by decide

/-- Nothing offered and nothing waiting: with the strobe in Idle and in Debouncing, and without it, on the wires or with no
cycle left. -/
theorem witness_TickDoesOneThing_step :
    (∀ s ∈ [{ start with env := [tickCycle] }, { pending 10 1 with env := [tickCycle, tickCycle] }],
      ready s = true ∧ (currentCycle s).rst = none ∧ offeredReports s = [] ∧
      s.rdWaiting + (currentCycle s).rd.toNat = 0 ∧ (currentCycle s).tick = true ∧ (s.rep = 0 ∨ s.deb ≠ 0)) ∧
    ∀ s ∈ [pending 1 0, { pending 1 0 with env := [EnvCycle.quiet, tickCycle] }],
      ready s = true ∧ (currentCycle s).rst = none ∧ offeredReports s = [] ∧
      s.rdWaiting + (currentCycle s).rd.toNat = 0 ∧ (currentCycle s).tick = false := by decide

/-- One state for each row of the table, and the operations that move it. -/
theorem witness_SchedulerMoves :
    sched start = .idle ∧ (sched (pending 10 2) = .debouncing ∧ 1 < (pending 10 2).deb) ∧
    (sched (pending 10 1) = .debouncing ∧ (pending 10 1).deb = 1) ∧
    (sched (pending 2 0) = .transmitting ∧ 1 < (pending 2 0).rep) ∧
    (sched (pending 1 0) = .transmitting ∧ (pending 1 0).rep = 1) ∧
    (decode on2Report).action = some (.on .s2) ∧ (decode setSerialReport).action = none := by decide
theorem witness_SchedulerMoves_operations :
    (∃ t, runOp .tick (pending 10 2) = some t) ∧ (∃ t, runOp (.write on2Report) (pending 10 2) = some t) ∧
    (∃ t, runOp (.write setSerialReport) (pending 10 2) = some t) ∧ (∃ t, runOp .read (pending 10 2) = some t) ∧
    (∃ t, runOp .reset (pending 10 2) = some t) := ⟨⟨_, rfl⟩, ⟨_, rfl⟩, ⟨_, rfl⟩, ⟨_, rfl⟩, ⟨_, rfl⟩⟩

theorem witness_BurstOfOneCommand :
    ready start = true ∧ isSocketCommand .allOff ∧ ∃ t, exec .allOff start = .next t :=
  ⟨by decide, by unfold isSocketCommand; decide, _, rfl⟩

/-- Different commands in turn, with gaps of no tick and of the whole debounce. -/
theorem witness_RetriesPostponeTheFirstFrame :
    ready start = true ∧
    ∀ p ∈ [(on2Report, debounceOf (.on .s2)), (shortReport 0xFD 4, debounceOf (.off .s4)), (shortReport 0xFE 0, 0)],
      ∃ act, (decode p.1).action = some act ∧ p.2 ≤ debounceOf act := by
  refine ⟨by decide, fun p hp => ?_⟩
  simp only [List.mem_cons, List.not_mem_nil, or_false] at hp
  rcases hp with rfl | rfl | rfl
  · exact ⟨_, rfl, Nat.le_refl _⟩
  · exact ⟨_, rfl, Nat.le_refl _⟩
  · exact ⟨_, rfl, Nat.zero_le _⟩

/-- A frame about to start, with a write, a read and a tick strobe among the quanta that follow. -/
def sending (es rest : List EnvCycle) : State := { pending 10 0 with env := tickCycle :: es ++ rest }

theorem sending_readyToSend (es rest : List EnvCycle) : readyToSend (sending es rest) :=
  ⟨rfl, rfl, by show ¬ (10 = 0); decide, rfl, rfl, rfl⟩

/-- n + 1 cycles without a reset, everything offered in the first. -/
def cycles (n : Nat) : List EnvCycle := ⟨none, some on2Report, true, true⟩ :: List.replicate n EnvCycle.quiet

theorem cycles_length (n : Nat) : (cycles n).length = n + 1 := by
  rw [cycles, List.length_cons, List.length_replicate]

theorem noReset_nil : noReset [] := fun _ hc => nomatch hc

theorem noReset_cycles (n : Nat) : noReset (cycles n) := by
  intro c hc
  rcases List.mem_cons.mp hc with rfl | hc
  · rfl
  · rw [List.eq_of_mem_replicate hc]
    rfl

theorem witness_FrameRefinesAtomicTick :
    ∃ s es rest, readyToSend s ∧ es.length = 247 ∧ noReset es ∧ s.env = tickCycle :: es ++ rest :=
  ⟨_, cycles 246, [tickCycle], sending_readyToSend _ _, cycles_length _, noReset_cycles _, rfl⟩

/-- The first quantum and the last. -/
theorem witness_LevelsDuringAFrame :
    (∃ s es rest, readyToSend s ∧ 0 < 247 ∧ es.length = 0 ∧ noReset es ∧ s.env = tickCycle :: es ++ rest) ∧
    ∃ s es rest, readyToSend s ∧ 246 < 247 ∧ es.length = 246 ∧ noReset es ∧ s.env = tickCycle :: es ++ rest :=
  ⟨⟨_, [], [], sending_readyToSend _ _, by decide, rfl, noReset_nil, rfl⟩,
    ⟨_, cycles 245, [], sending_readyToSend _ _, by decide, cycles_length _, noReset_cycles _, rfl⟩⟩

/-- A frame in flight, with everything offered, and the same cycle without the strobe. -/
theorem witness_BusyBlockTakesNothing :
    (offering on2Report (inFrame 13)).booted = true ∧ (offering on2Report (inFrame 13)).busy = true ∧
    (currentCycle (offering on2Report (inFrame 13))).rst = none ∧
    (⟨none, some on2Report, false, true⟩ : EnvCycle).wr = (currentCycle (offering on2Report (inFrame 13))).wr := by decide

/-- A read that waits and a read asked for in this cycle. -/
theorem witness_ReadReportsAddressAndMask :
    ({ start with rdWaiting := 1 } : State).booted = true ∧ ({ start with rdWaiting := 1 } : State).busy = false ∧
    (currentCycle { start with rdWaiting := 1 }).rst = none ∧ offeredReports { start with rdWaiting := 1 } = [] ∧
    ({ start with env := [⟨none, none, true, true⟩] } : State).rdWaiting +
      (currentCycle { start with env := [⟨none, none, true, true⟩] }).rd.toNat ≠ 0 := by decide

theorem witness_ReadAfterWriteSeesIt :
    (∃ t u, ready start = true ∧ runOp (.write setSerialReport) start = some t ∧ runOp .read t = some u ∧
      decode setSerialReport = .setSerial 0xABCDE) ∧
    (∃ t u, runOp (.write on2Report) start = some t ∧ runOp .read t = some u ∧
      (decode on2Report).action = some (.on .s2)) ∧
    ∃ t u, runOp (.write (shortReport 0 0)) start = some t ∧ runOp .read t = some u ∧
      (decode (shortReport 0 0)).action = none :=
  ⟨⟨_, _, by decide, rfl, rfl, by decide⟩, ⟨_, _, rfl, rfl, by decide⟩, ⟨_, _, rfl, rfl, by decide⟩⟩

/-- The socket command and the IGNORED report of the clauses above are no SET_SERIAL. -/
theorem witness_ReadAfterWriteSeesIt_sameAddress :
    ∀ r ∈ [on2Report, shortReport 0 0], ∀ a, decode r ≠ .setSerial a := by
  intro r hr a h
  simp only [List.mem_cons, List.not_mem_nil, or_false] at hr
  rcases hr with rfl | rfl
  · exact Instr.noConfusion (h.symm.trans (show decode on2Report = .on2 by decide))
  · exact Instr.noConfusion (h.symm.trans (show decode (shortReport 0 0) = .ignored by decide))

theorem witness_SameCycleOrder :
    ready start = true ∧ start.wrQueue = [] ∧ start.rdWaiting = 0 ∧
    ({ start with env := [⟨none, some on2Report, true, true⟩, ⟨none, none, false, true⟩, ⟨none, none, false, false⟩] } :
      State).env =
      ⟨none, some on2Report, true, true⟩ :: ⟨none, none, false, true⟩ :: ⟨none, none, false, false⟩ :: [] := by decide

/-- A reset in a frame, at both ends of a quantum, and one that cuts a SET_SERIAL. -/
theorem witness_ResetValues :
    (currentCycle { inFrame 13 with env := [resetCycleAt 0] }).rst = some ⟨0, none⟩ ∧
    (currentCycle { inFrame 13 with env := [resetCycleAt 199] }).rst = some ⟨199, none⟩ ∧
    (currentCycle { start with env := [⟨some ⟨0, some ⟨1, true⟩⟩, some setSerialReport, false, false⟩] }).rst =
      some ⟨0, some ⟨1, true⟩⟩ := by decide

/-- Erased storage, and storage that differs from it in one bit. -/
theorem witness_UnbootedBlockOnlyBoots :
    State.reset.booted = false ∧ (currentCycle State.reset).rst = none ∧ Memory.read State.reset.nv 0 = 0xFF ∧
    Memory.read State.reset.nv 1 = 0xFF ∧ Memory.read State.reset.nv 2 = 0xFF ∧
    ¬ (Memory.read [(2, 0xFE)] 0 = 0xFF ∧ Memory.read [(2, 0xFE)] 1 = 0xFF ∧ Memory.read [(2, 0xFE)] 2 = 0xFF) := by decide

theorem witness_ResetThenBootIsTheResetOperation :
    (pending 6 0).busy = false ∧
    ({ pending 6 0 with env := [resetCycleAt 5, EnvCycle.quiet, tickCycle] } : State).env =
      resetCycleAt 5 :: EnvCycle.quiet :: [tickCycle] := by decide

/-- Two arrays that differ only outside copy 0, and a canonical array. -/
theorem witness_LoadReadsCopyZeroOnly :
    (∀ x, x < 3 → Memory.read [(0x40, 0x45)] x = Memory.read [(0x80, 0x12)] x) ∧ Memory.wf [(0x40, 0x45)] := by decide

/-- A reset right after FrameStart and one in the last quantum of the gap. -/
theorem witness_ResetCutsTheFrame :
    (∃ s es rest, readyToSend s ∧ es.length < 247 ∧ noReset es ∧ s.env = tickCycle :: es ++ resetCycleAt 0 :: rest) ∧
    ∃ s es rest, readyToSend s ∧ es.length = 246 ∧ es.length < 247 ∧ noReset es ∧
      s.env = tickCycle :: es ++ resetCycleAt 199 :: rest :=
  ⟨⟨_, [], [], sending_readyToSend [] _, by decide, noReset_nil, rfl⟩,
    ⟨_, cycles 245, [], sending_readyToSend _ _, cycles_length _, by rw [cycles_length]; decide, noReset_cycles _, rfl⟩⟩

/-- A ready block whose wires hold `held`, and a cycle that offers `w` and resets with the cut `c`. -/
def resetting (held : List Report) (w : Option Report) (c : Cut) : State :=
  { start with wrQueue := held, env := [⟨some ⟨7, some c⟩, w, false, false⟩, EnvCycle.quiet] }

/-- A SET_SERIAL held before the reset, with another report behind it, and one offered in the reset cycle itself; cuts with
no copy, a torn copy and all three copies. -/
theorem witness_ResetDuringSetSerial :
    ∀ c ∈ [(⟨0, false⟩ : Cut), ⟨0, true⟩, ⟨1, true⟩, ⟨3, false⟩],
      ∀ x ∈ [(resetting [setSerialReport] (some on2Report) c, some on2Report, [on2Report]),
        (resetting [] (some setSerialReport) c, some setSerialReport, [])],
        Memory.wf x.1.nv ∧ ready x.1 = true ∧
        x.1.env = ⟨some ⟨7, some c⟩, x.2.1, false, false⟩ :: EnvCycle.quiet :: [] ∧
        offeredReports x.1 = setSerialReport :: x.2.2 ∧ decode setSerialReport = .setSerial 0xABCDE := by decide

theorem witness_AddressSurvivesPowerCycle :
    ready start = true ∧ Memory.wf start.nv ∧ decode setSerialReport = .setSerial 0xABCDE ∧
    ∀ o ∈ [Op.write on2Report, .tick, .reset, .read, .write (shortReport 0xFA 0)], notSetSerial o := by
  refine ⟨by decide, by decide, by decide, fun o ho => ?_⟩
  have h1 : decode on2Report = .on2 := by decide
  have h2 : decode (shortReport 0xFA 0) = .ignored := by decide
  simp only [List.mem_cons, List.not_mem_nil, or_false] at ho
  rcases ho with rfl | rfl | rfl | rfl | rfl <;> simp only [notSetSerial, h1, h2] <;> intro a ha <;> cases ha

/-- A booted block with nothing to do is a legal state, and so is one with a job. -/
theorem witness_EveryStepKeepsInvariant : Inv (pending 10 0) ∧ ∃ t, step (pending 10 0) = .next t :=
  ⟨⟨by decide, Nat.zero_le _, by decide, by decide, by decide, by decide, by decide, fun h => absurd h (by decide),
    by decide, by decide, by decide, by decide⟩, _, rfl⟩

/-- A state in the middle of a frame is legal too. -/
theorem witness_EveryStepKeepsInvariant_in_frame : Inv (inFrame 13) :=
  ⟨by decide, by rw [show (inFrame 13).deb = 0 by decide]; exact Nat.zero_le _, by decide, by decide, by decide, by decide,
    by decide, fun _ => ⟨by decide, by decide, by decide,
      ⟨by decide, by decide, by decide, by decide, by decide, by decide⟩⟩, by decide, by decide, by decide, by decide⟩

theorem witness_OperationsKeepInvariant :
    (Inv (pending 10 0) ∧ ready (pending 10 0) = true) ∧ (ready State.reset = false ∧ Op.tick ≠ .reset) ∧
    ready (inFrame 13) = false :=
  ⟨⟨witness_EveryStepKeepsInvariant.1, by decide⟩, by decide, by decide⟩

theorem witness_EveryStepAnswersNext :
    ready start = true ∧ takes (offering (shortReport 0 0) (pending 10 2)) (shortReport 0 0) [] ∧
    decode (shortReport 0 0) = .ignored := ⟨by decide, ⟨rfl, rfl, rfl, rfl⟩, by decide⟩

/-- A step that changes MASK: by a command, and by a reset. -/
theorem witness_OnlySocketCommandsChangeMask :
    (∃ t, step (offering on2Report start) = .next t ∧ t.mask ≠ (offering on2Report start).mask) ∧
    ∃ t, step { start with env := [resetCycleAt 0] } = .next t ∧ t.mask ≠ start.mask :=
  ⟨⟨_, rfl, by decide⟩, ⟨_, rfl, by decide⟩⟩

/-- A step that changes ADDR: SET_SERIAL, and a boot load from a stored record. -/
theorem witness_OnlyBootAndSetSerialChangeAddr :
    (∃ t, step (offering setSerialReport start) = .next t ∧ t.addr ≠ (offering setSerialReport start).addr) ∧
    ∃ t, step { State.reset with nv := [(0, 0x45), (1, 0x23), (2, 0x01)] } = .next t ∧ t.addr ≠ State.reset.addr :=
  ⟨⟨_, rfl, by decide⟩, ⟨_, rfl, by decide⟩⟩

/-- A step that changes storage, whole and cut. -/
theorem witness_OnlyTheNineBytesChange :
    (∃ t, step (offering setSerialReport start) = .next t ∧ t.nv ≠ (offering setSerialReport start).nv) ∧
    ∃ t, step { start with env := [⟨some ⟨0, some ⟨2, false⟩⟩, some setSerialReport, false, false⟩] } = .next t ∧
      t.nv ≠ start.nv :=
  ⟨⟨_, rfl, by decide⟩, ⟨_, rfl, by decide⟩⟩

/-- A step that starts a frame, and one of a block that is not busy. -/
theorem witness_EventsOnlyFromTheirCauses :
    (∃ t, step (sending [] []) = .next t ∧ t.trace = (sending [] []).trace ++ [.wdtKick, .critOn] ∧
      framesIn [.wdtKick, .critOn] ≠ 0) ∧
    (sending [] []).busy = false ∧ ∃ t, step (inFrame 13) = .next t :=
  ⟨⟨_, rfl, by decide, by decide⟩, by decide, _, rfl⟩

theorem witness_MaskShowsLastCommanded :
    3 < 4 ∧ ∃ t, runOps [.reset, .tick, .write on2Report, .write setSerialReport, .read] start = some t :=
  ⟨by decide, _, rfl⟩

end Sys2Proof.Tests
end

section
/-! PROOFS. The statements of 00_scope.md: the four operations from a ready block keep the invariants and end between
frames; a step adds `Rf` events only in a frame and starts one only by a due tick. -/

namespace Sys2Proof.Machine

/-! ## The job registers of a legal state -/

/-- The invariants of 10_state.md R27 that speak of CW, REP and DEB alone (I1 to I5). -/
structure JobLegal (cw : Codeword) (rep deb : Nat) : Prop where
  repRange : rep ≤ Config.repeats
  debRange : deb ≤ Config.debMax
  idleCw : rep = 0 ↔ cw = 0
  idleDeb : rep = 0 → deb = 0
  jobNibble : rep ≠ 0 → cwNibble cw ∈ commandNibbles

theorem Inv.jobLegal {s : State} (h : Inv s) : JobLegal s.cw s.rep s.deb :=
  ⟨h.repRange, h.debRange, h.idleCw, h.idleDeb, h.jobNibble⟩

theorem jobLegal_none : JobLegal 0 0 0 :=
  ⟨Nat.zero_le _, Nat.zero_le _, by simp, fun _ => rfl, fun h => absurd rfl h⟩

/-- The job a socket command submits is legal (43_command_decoder.md R167). -/
theorem jobLegal_action (a : Addr) (act : Action) :
    JobLegal (encodeCodeword a act) Config.repeats (debounceOf act) where
  repRange := Nat.le_refl _
  debRange := debounceOf_le act
  idleCw := iff_of_false (by decide) (encodeCodeword_ne_zero a act)
  idleDeb := by simp [Config.repeats]
  jobNibble _ := (codeword_fields a act).2 ▸ nibbleOf_mem act

/-- A tick of the debounce keeps the job legal (44_scheduler.md R180). -/
theorem JobLegal.debounce {cw : Codeword} {rep deb : Nat} (h : JobLegal cw rep deb) : JobLegal cw rep (deb - 1) where
  repRange := h.repRange
  debRange := Nat.le_trans (Nat.sub_le ..) h.debRange
  idleCw := h.idleCw
  idleDeb h0 := by rw [h.idleDeb h0]
  jobNibble := h.jobNibble

/-- A frame sent keeps the job legal: CW is cleared with the last one (44_scheduler.md R185). -/
theorem JobLegal.frameDone {cw : Codeword} {rep deb : Nat} (h : JobLegal cw rep deb) (hr : rep ≠ 0) (hd : deb = 0) :
    JobLegal (if rep - 1 = 0 then 0 else cw) (rep - 1) deb where
  repRange := Nat.le_trans (Nat.sub_le ..) h.repRange
  debRange := h.debRange
  idleCw := by
    have hcw : cw ≠ 0 := mt h.idleCw.mpr hr
    split <;> simp_all
  idleDeb _ := hd
  jobNibble h1 := by rw [if_neg h1]; exact h.jobNibble hr

/-! ## Legal states between frames -/

/-- Between frames the invariants are those of the job, the three levels low, and the ranges (10_state.md R27 I6). -/
theorem inv_betweenFrames {t : State} (hjob : JobLegal t.cw t.rep t.deb) (hboot : t.booted = true)
    (hbusy : t.busy = false) (hcrit : t.crit = false) (hrf : t.rfOut = false) (htxs : t.txs = .idle)
    (hbit : t.bitcnt ≤ 24) (hq : t.qcnt ≤ Config.gapQuanta) (hnv : Memory.wf t.nv) : Inv t where
  repRange := hjob.repRange
  debRange := hjob.debRange
  idleCw := hjob.idleCw
  idleDeb := hjob.idleDeb
  jobNibble := hjob.jobNibble
  quiet _ := ⟨hcrit, hrf, htxs⟩
  critBusy h := by rw [hcrit] at h; cases h
  frame h := by rw [hbusy] at h; cases h
  unbooted h := by rw [hboot] at h; cases h
  bitRange := hbit
  quantaRange := hq
  storage := hnv

/-- From a legal ready state, what leaves the levels and the transmitter alone and the job and storage legal leads to a
legal ready state. -/
theorem Inv.of_sameLevels {s t : State} (hi : Inv s) (hr : ready s = true) (hl : sameLevels s t)
    (hjob : JobLegal t.cw t.rep t.deb) (hnv : Memory.wf t.nv) : Inv t ∧ ready t = true := by
  obtain ⟨hboot, hbusy⟩ := (ready_iff s).mp hr
  obtain ⟨hcrit, hrf, htxs⟩ := hi.quiet hbusy
  obtain ⟨l1, l2, l3, l4, l5, -, -, l8, l9⟩ := hl
  have tboot := l1.trans hboot
  have tbusy := l4.trans hbusy
  exact ⟨inv_betweenFrames hjob tboot tbusy (l3.trans hcrit) (l2.trans hrf) (l5.trans htxs) (l8 ▸ hi.bitRange)
    (l9 ▸ hi.quantaRange) hnv, (ready_iff t).mpr ⟨tboot, tbusy⟩⟩

/-! ## The four operations -/

/-- The three things a command can do: set MASK and the job, store a new address, or nothing. -/
theorem exec_cases {i : Instr} {s t : State} (h : exec i s = .next t) :
    (∃ act, i.action = some act ∧
      t = setJob (encodeCodeword s.addr act) Config.repeats (debounceOf act) (setMask (maskAfter act s.mask) s)) ∨
    (∃ a, i = .setSerial a ∧
      t = setAddr a (emitAll [.nvWr 0x00 (recordOf a), .nvWr 0x40 (recordOf a), .nvWr 0x80 (recordOf a)]
        (setNv (withCopies a s.nv) s))) ∨
    (i = .ignored ∧ t = s) := by
  rcases instr_cases i with ⟨act, hact⟩ | ⟨a, rfl⟩ | rfl
  · rw [exec_socket hact] at h
    cases h
    exact .inl ⟨act, hact, rfl⟩
  · rw [exec_setSerial, pairingSet_eq] at h
    cases h
    exact .inr (.inl ⟨a, rfl, rfl⟩)
  · rw [exec_ignored] at h
    cases h
    exact .inr (.inr ⟨rfl, rfl⟩)

/-- A command leaves the levels and the transmitter alone (10_state.md R28). -/
theorem exec_sameLevels {i : Instr} {s t : State} (h : exec i s = .next t) : sameLevels s t := by
  obtain ⟨act, -, rfl⟩ | ⟨a, -, rfl⟩ | ⟨-, rfl⟩ := exec_cases h <;>
    exact ⟨rfl, rfl, rfl, rfl, rfl, rfl, rfl, rfl, rfl⟩

/-- A command keeps the job legal and storage canonical. -/
theorem exec_jobLegal_wf {i : Instr} {s t : State} (h : exec i s = .next t) (hjob : JobLegal s.cw s.rep s.deb)
    (hnv : Memory.wf s.nv) : JobLegal t.cw t.rep t.deb ∧ Memory.wf t.nv := by
  obtain ⟨act, -, rfl⟩ | ⟨a, -, rfl⟩ | ⟨-, rfl⟩ := exec_cases h
  · exact ⟨jobLegal_action s.addr act, hnv⟩
  · exact ⟨hjob, withCopies_wf a s.nv hnv⟩
  · exact ⟨hjob, hnv⟩

/-- The atomic RESET ends between frames from every state (70_reset_and_hazards.md R241, R242). -/
theorem ready_resetOp (s : State) : ready (resetOp s) = true := rfl

/-- The atomic RESET needs no legal state, only canonical storage, which it leaves alone. -/
theorem inv_resetOp {s : State} (hnv : Memory.wf s.nv) : Inv (resetOp s) := by
  obtain ⟨-, hcw, hrep, hdeb, -, hbusy, hcrit, hrf, htxs, hbit, hq⟩ := enterReset_registers 0 s
  rw [resetOp, boot_eq]
  exact inv_betweenFrames (by rw [hcw, hrep, hdeb]; exact jobLegal_none) rfl hbusy hcrit hrf htxs hbit hq
    ((enterReset_outside 0 s).1 ▸ hnv)

/-- The atomic TICK of a legal ready state, scheduler state by scheduler state (44_scheduler.md R180). -/
theorem inv_tickWhole {s : State} (hi : Inv s) (hr : ready s = true) :
    Inv (tickWhole s) ∧ ready (tickWhole s) = true := by
  obtain ⟨hcrit, hrf, -⟩ := hi.quiet ((ready_iff s).mp hr).2
  by_cases hrep : s.rep = 0
  · rw [tickWhole_idle hrep]
    exact hi.of_sameLevels hr ⟨rfl, rfl, rfl, rfl, rfl, rfl, rfl, rfl, rfl⟩ hi.jobLegal hi.storage
  · by_cases hdeb : s.deb = 0
    · rw [tickWhole_transmitting hrep hdeb]
      exact hi.of_sameLevels hr
        ⟨rfl, hrf.symm, hcrit.symm, ((ready_iff s).mp hr).2.symm, rfl, rfl, rfl, rfl, rfl⟩
        (hi.jobLegal.frameDone hrep hdeb) hi.storage
    · rw [tickWhole_debouncing hrep hdeb]
      exact hi.of_sameLevels hr ⟨rfl, rfl, rfl, rfl, rfl, rfl, rfl, rfl, rfl⟩ hi.jobLegal.debounce hi.storage

/-- Every operation of a legal ready block completes in a legal ready state. -/
theorem runOp_inv_ready (o : Op) {s : State} (hi : Inv s) (hr : ready s = true) :
    ∃ t, runOp o s = some t ∧ Inv t ∧ ready t = true := by
  cases o with
  | reset => exact ⟨resetOp s, rfl, inv_resetOp hi.storage, ready_resetOp s⟩
  | write r =>
    obtain ⟨t, hexec, hrun⟩ := runOp_write r hr
    obtain ⟨hjob, hnv⟩ := exec_jobLegal_wf hexec hi.jobLegal hi.storage
    have hlevels := exec_sameLevels hexec
    exact ⟨emit .ack t, hrun, hi.of_sameLevels hr hlevels hjob hnv⟩
  | read =>
    exact ⟨readOp s, if_pos hr,
      hi.of_sameLevels hr ⟨rfl, rfl, rfl, rfl, rfl, rfl, rfl, rfl, rfl⟩ hi.jobLegal hi.storage⟩
  | tick => exact ⟨tickWhole s, runOp_tick hr, inv_tickWhole hi hr⟩

/-- A block that is not ready performs no operation but RESET (00_scope.md R9). -/
theorem runOp_eq_none {o : Op} {s : State} (hr : ready s = false) (ho : o ≠ .reset) : runOp o s = none := by
  cases o with
  | reset => exact absurd rfl ho
  | write r => simp [runOp, hr]
  | read => simp [runOp, hr]
  | tick => simp [runOp, hr]

/-- Settles O41: each operation leaves the levels alone or resets them, and keeps the job legal and storage canonical. -/
theorem operationsKeepInvariant : Obligations.OperationsKeepInvariant := by
  unfold Obligations.OperationsKeepInvariant
  exact ⟨fun o _ hi hr => runOp_inv_ready o hi hr, fun s => ⟨resetOp s, rfl, ready_resetOp s⟩,
    fun _ _ hr ho => runOp_eq_none hr ho⟩

/-! ## Steps that start no frame -/

/-- The trace of `t` is that of `s` and further events, among them no frame start, and no hold unless a frame was in
flight. -/
def StartsNoFrame (s t : State) : Prop :=
  ∃ es, t.trace = s.trace ++ es ∧ framesIn es = 0 ∧ (s.busy = false → durations es = [])

theorem StartsNoFrame.of_trace_eq {s t : State} (h : t.trace = s.trace) : StartsNoFrame s t :=
  ⟨[], by simp [h], rfl, fun _ => rfl⟩

theorem StartsNoFrame.trans {s t u : State} (h1 : StartsNoFrame s t) (hb : t.busy = s.busy) (h2 : StartsNoFrame t u) :
    StartsNoFrame s u := by
  obtain ⟨es, htr, hf, hd⟩ := h1
  obtain ⟨fs, htr', hf', hd'⟩ := h2
  refine ⟨es ++ fs, by rw [htr', htr, List.append_assoc], by rw [framesIn_append, hf, hf'], fun hs => ?_⟩
  rw [durations_append, hd hs, hd' (hb.trans hs)]
  rfl

/-- The events of stored copies are storage writes. -/
theorem framesIn_nvWrs (offs : List Nat) (bs : List Byte) : framesIn (offs.map (.nvWr · bs)) = 0 := by
  induction offs with
  | nil => rfl
  | cons off offs ih => simpa using ih

theorem durations_nvWrs (offs : List Nat) (bs : List Byte) : durations (offs.map (.nvWr · bs)) = [] := by
  induction offs with
  | nil => rfl
  | cons off offs ih => simpa using ih

theorem writeCopies_startsNoFrame (offs : List Nat) (bs : List Byte) (s : State) :
    StartsNoFrame s (writeCopies offs bs s) := by
  rw [writeCopies_eq]
  exact ⟨_, rfl, framesIn_nvWrs offs bs, fun _ => durations_nvWrs offs bs⟩

theorem writeCopies_busy (offs : List Nat) (bs : List Byte) (s : State) : (writeCopies offs bs s).busy = s.busy := by
  rw [writeCopies_eq]
  rfl

/-- A SET_SERIAL cut by a reset has issued storage writes only (70_reset_and_hazards.md R251). -/
theorem pairingSetCut_startsNoFrame (a : Addr) (c : Cut) (s : State) :
    StartsNoFrame s (pairingSetCut a c s) ∧ (pairingSetCut a c s).busy = s.busy := by
  have hdone := writeCopies_startsNoFrame (Config.nvOffsets.take c.copies) (recordOf a) s
  have hbusy := writeCopies_busy (Config.nvOffsets.take c.copies) (recordOf a) s
  simp only [pairingSetCut]
  split
  · split
    · exact ⟨hdone, hbusy⟩
    · exact ⟨hdone.trans hbusy ⟨_, rfl, rfl, fun _ => rfl⟩, hbusy⟩
  · exact ⟨hdone, hbusy⟩

theorem cutWrite_startsNoFrame (p : ResetPoint) (s : State) :
    StartsNoFrame s (cutWrite p s) ∧ (cutWrite p s).busy = s.busy := by
  rcases cutWrite_cases p s with h | ⟨c, r, rest, a, -, -, -, -, h⟩
  · rw [h]
    exact ⟨.of_trace_eq rfl, rfl⟩
  · rw [h]
    exact pairingSetCut_startsNoFrame a c (setHost rest s.rdWaiting s)

/-- A reset records a hold only when it cuts a frame (42_rf_transmitter.md R143). -/
theorem enterReset_startsNoFrame (us : Nat) (s : State) : StartsNoFrame s (enterReset us s) := by
  obtain ⟨-, -, -, -, htr⟩ := enterReset_outside us s
  refine ⟨_, htr.trans (List.append_assoc ..), ?_, fun hb => ?_⟩
  · cases s.busy <;> rfl
  · rw [hb]
    rfl

theorem resetCycle_startsNoFrame (p : ResetPoint) (s : State) : StartsNoFrame s (resetCycle p s) := by
  obtain ⟨hcut, hbusy⟩ := cutWrite_startsNoFrame p s
  exact hcut.trans hbusy (enterReset_startsNoFrame _ _)

theorem boot_startsNoFrame (s : State) : StartsNoFrame s (boot s) := ⟨[.nvRd 0 3], rfl, rfl, fun _ => rfl⟩

/-- The end of a hold records it, and the end of the sync pulse closes the critical window; none opens one
(42_rf_transmitter.md R141). -/
theorem holdEnd_trace (s : State) : ∃ es, (holdEnd s).trace = s.trace ++ es ∧ framesIn es = 0 := by
  unfold holdEnd
  cases s.txs with
  | idle => exact ⟨[], by simp, rfl⟩
  | bitHi => exact ⟨_, rfl, rfl⟩
  | bitLo => dsimp only; split <;> exact ⟨_, rfl, rfl⟩
  | sync => exact ⟨_, by simp [emitHold]; rfl, rfl⟩
  | gap => exact ⟨_, rfl, rfl⟩

theorem qStep_startsNoFrame {s : State} (hb : s.busy = true) : StartsNoFrame s (qStep s) := by
  have hvac : s.busy = false → ∀ es : List Event, durations es = [] := fun h => by rw [hb] at h; cases h
  simp only [qStep]
  split
  · obtain ⟨es, htr, hf⟩ := holdEnd_trace (setTx s.txs s.shreg s.cur s.bitcnt (s.qcnt - 1) s)
    exact ⟨es, htr, hf, fun h => hvac h es⟩
  · exact .of_trace_eq rfl

/-- A command issues storage writes at most (20_memory.md R64). -/
theorem exec_startsNoFrame {i : Instr} {s t : State} (h : exec i s = .next t) : StartsNoFrame s t := by
  obtain ⟨act, -, rfl⟩ | ⟨a, -, rfl⟩ | ⟨-, rfl⟩ := exec_cases h
  · exact .of_trace_eq rfl
  · exact ⟨_, rfl, rfl, fun _ => rfl⟩
  · exact .of_trace_eq rfl

theorem write_startsNoFrame {i : Instr} {s t : State} (h : exec i s = .next t) : StartsNoFrame s (emit .ack t) := by
  obtain ⟨-, hbusy, -⟩ := exec_ports h
  exact (exec_startsNoFrame h).trans hbusy ⟨[.ack], rfl, rfl, fun _ => rfl⟩

/-- A tick with no job, or with its debounce still running, only refreshes the watchdog (44_scheduler.md R180). -/
theorem tickStart_startsNoFrame {s : State} (h : s.rep = 0 ∨ s.deb ≠ 0) : StartsNoFrame s (tickStart s) := by
  by_cases hrep : s.rep = 0
  · rw [tickStart_idle hrep]
    exact ⟨[.wdtKick], rfl, rfl, fun _ => rfl⟩
  · rw [tickStart_debouncing hrep (h.resolve_left hrep)]
    exact ⟨[.wdtKick], rfl, rfl, fun _ => rfl⟩

/-! ## What a step adds to the trace -/

/-- A step starts no frame, or it is the tick of a block ready to send with nothing offered (44_scheduler.md R182). -/
theorem step_startsNoFrame_or_frameStart {s t : State} (h : step s = .next t) :
    StartsNoFrame s t ∨
    ((currentCycle s).rst = none ∧ ready s = true ∧ offeredReports s = [] ∧
      s.rdWaiting + (currentCycle s).rd.toNat = 0 ∧ (currentCycle s).tick = true ∧ s.rep ≠ 0 ∧ s.deb = 0 ∧
      t = frameStart s.cw (emit .wdtKick (acceptedState s []))) := by
  rcases step_cases s with ⟨p, -, h'⟩ | ⟨-, -, h'⟩ | ⟨-, -, hbusy, h'⟩ | ⟨r, rest, u, -, hexec, h'⟩ |
    ⟨-, -, -, -, -, h'⟩ | ⟨hrst, hboot, hbusy, hoff, hrd, htick, h'⟩ | ⟨-, -, -, -, -, -, h'⟩ <;>
    obtain rfl : _ = t := by simpa [h'] using h
  · exact .inl (resetCycle_startsNoFrame p (takeOffers (currentCycle s) s))
  · exact .inl (boot_startsNoFrame (takeOffers (currentCycle s) s))
  · exact .inl (qStep_startsNoFrame (s := takeOffers (currentCycle s) s) hbusy)
  · exact .inl (write_startsNoFrame (s := acceptedState s rest) hexec)
  · exact .inl ⟨[.rdData _], rfl, rfl, fun _ => rfl⟩
  · by_cases hdue : s.rep = 0 ∨ s.deb ≠ 0
    · exact .inl (tickStart_startsNoFrame (s := acceptedState s []) hdue)
    · obtain ⟨hrep, hdeb⟩ := not_or.mp hdue
      have hdeb := not_not.mp hdeb
      exact .inr ⟨hrst, (ready_iff s).mpr ⟨hboot, hbusy⟩, hoff, hrd, htick, hrep, hdeb,
        tickStart_transmitting (s := acceptedState s []) hrep hdeb⟩
  · exact .inl (.of_trace_eq rfl)

/-- Settles O46, from what each kind of step adds to the trace. -/
theorem eventsOnlyFromTheirCauses : Obligations.EventsOnlyFromTheirCauses := by
  unfold Obligations.EventsOnlyFromTheirCauses
  intro s t h
  rcases step_startsNoFrame_or_frameStart h with ⟨es, htr, hf, hd⟩ |
    ⟨hrst, hready, hoff, hrd, htick, hrep, hdeb, rfl⟩
  · exact ⟨es, htr, hd, fun hn => absurd hf hn⟩
  · obtain ⟨-, -, htr, -, -, -, hbusy, -⟩ := frameStart_frameInv (emit .wdtKick (acceptedState s []))
    exact ⟨[.wdtKick, .critOn], htr.trans (List.append_assoc ..), fun _ => rfl,
      fun _ => ⟨hready, htick, hrst, hrep, hdeb, hoff, (Nat.add_eq_zero_iff.mp hrd).1, hbusy⟩⟩

end Sys2Proof.Machine
end

section
/-! PROOFS. The statements of 10_state.md: the invariants hold at reset and are kept by every step, what a busy block and a
tick do, and which steps change MASK and ADDR. -/

namespace Sys2Proof.Machine

/-! ## Legal states right after a reset -/

/-- The registers that have a value after a reset have it, those without one are in their range (10_state.md R31, R41). -/
def AtResetValues (t : State) : Prop :=
  t.mask = 0 ∧ t.cw = 0 ∧ t.rep = 0 ∧ t.deb = 0 ∧ t.booted = false ∧ t.busy = false ∧ t.crit = false ∧
    t.rfOut = false ∧ t.txs = .idle ∧ t.bitcnt ≤ 24 ∧ t.qcnt ≤ 150

/-- The reset values are legal, whatever canonical storage holds. -/
theorem AtResetValues.inv {t : State} (h : AtResetValues t) (hnv : Memory.wf t.nv) : Inv t := by
  obtain ⟨hmask, hcw, hrep, hdeb, -, hbusy, hcrit, hrf, htxs, hbit, hq⟩ := h
  have hjob : JobLegal t.cw t.rep t.deb := by rw [hcw, hrep, hdeb]; exact jobLegal_none
  exact {
    repRange := hjob.repRange
    debRange := hjob.debRange
    idleCw := hjob.idleCw
    idleDeb := hjob.idleDeb
    jobNibble := hjob.jobNibble
    quiet := fun _ => ⟨hcrit, hrf, htxs⟩
    critBusy := fun h => by rw [hcrit] at h; cases h
    frame := fun h => by rw [hbusy] at h; cases h
    unbooted := fun _ => ⟨hmask, hrep, hbusy⟩
    bitRange := hbit
    quantaRange := hq
    storage := hnv }

/-- Settles O39: the state right after reset is at the reset values, and its storage is canonical. -/
theorem invariantAtReset : Obligations.InvariantAtReset := by
  have hvalues : AtResetValues State.reset := by unfold AtResetValues; decide
  exact hvalues.inv reset_nv_wf

/-- A SET_SERIAL cut by a reset leaves storage canonical, a torn copy included (70_reset_and_hazards.md R251). -/
theorem pairingSetCut_wf (a : Addr) (c : Cut) {s : State} (h : Memory.wf s.nv) : Memory.wf (pairingSetCut a c s).nv := by
  have hdone : Memory.wf (writeCopies (Config.nvOffsets.take c.copies) (recordOf a) s).nv := by
    rw [writeCopies_eq]
    exact copies_wf _ _ _ h
  simp only [pairingSetCut]
  split
  · split
    · exact hdone
    · exact writeBytes_wf _ _ _ hdone
  · exact hdone

theorem cutWrite_wf (p : ResetPoint) {s : State} (h : Memory.wf s.nv) : Memory.wf (cutWrite p s).nv := by
  rcases cutWrite_cases p s with hcut | ⟨c, r, rest, a, -, -, -, -, hcut⟩
  · rw [hcut]
    exact h
  · rw [hcut]
    exact pairingSetCut_wf a c (s := setHost rest s.rdWaiting s) h

/-- A reset cycle needs no legal state, only canonical storage. -/
theorem inv_resetCycle (p : ResetPoint) {s : State} (h : Memory.wf s.nv) : Inv (resetCycle p s) := by
  have hvalues : AtResetValues (resetCycle p s) := enterReset_registers _ _
  have hnv : (resetCycle p s).nv = (cutWrite p s).nv := (enterReset_outside _ _).1
  exact hvalues.inv (hnv ▸ cutWrite_wf p h)

/-! ## Legal states during a frame -/

theorem FrameInv.bitcnt_le {s : State} (hf : FrameInv s) : s.bitcnt ≤ 24 := by
  cases htx : s.txs with
  | idle => exact absurd htx hf.running
  | bitHi => exact (hf.bits (.inl htx)).2.1
  | bitLo => exact (hf.bits (.inr htx)).2.1
  | sync => exact (hf.after (.inl htx)).1 ▸ Nat.zero_le 24
  | gap => exact (hf.after (.inr htx)).1 ▸ Nat.zero_le 24

/-- From a legal state with a due job, what leaves the job alone and has the transmitter in the frame of CW leads to a legal
state (10_state.md R27, 42_rf_transmitter.md R141). -/
theorem Inv.inFrame {s t : State} (hi : Inv s) (hboot : s.booted = true) (hrep : s.rep ≠ 0) (hdeb : s.deb = 0)
    (hkept : QuantumFrame s t) (hcw : t.cw = s.cw) (hrep' : t.rep = s.rep) (hbusy : t.busy = true) (hf : FrameInv t) :
    Inv t where
  repRange := hrep' ▸ hi.repRange
  debRange := hkept.deb ▸ hi.debRange
  idleCw := by rw [hrep', hcw]; exact hi.idleCw
  idleDeb _ := hkept.deb.trans hdeb
  jobNibble _ := hcw ▸ hi.jobNibble hrep
  quiet h := by rw [hbusy] at h; cases h
  critBusy _ := hbusy
  frame _ := ⟨hkept.booted.trans hboot, hrep' ▸ hrep, hkept.deb.trans hdeb, hf⟩
  unbooted h := by rw [hkept.booted, hboot] at h; cases h
  bitRange := hf.bitcnt_le
  quantaRange := Nat.le_trans hf.hold.2 (holdQuanta_le t.txs t.cur)
  storage := hkept.nv ▸ hi.storage

/-- One quantum of a frame: the frame goes on, or the block is between frames with one frame less to send. -/
theorem inv_qStep {s : State} (hi : Inv s) (hbusy : s.busy = true) : Inv (qStep s) := by
  obtain ⟨hboot, hrep, hdeb, hf⟩ := hi.frame hbusy
  have hkept := qStep_frame s
  rcases qStep_cases s hf hbusy with ⟨-, hf', hbusy', -, -, -, -, hcw, hrep'⟩ |
    ⟨-, hbusy', hrf, hcrit, htxs, -, -, hrep', hcw, hbit, hq⟩
  · exact hi.inFrame hboot hrep hdeb hkept hcw hrep' hbusy' hf'
  · exact inv_betweenFrames (by rw [hcw, hrep', hkept.deb]; exact hi.jobLegal.frameDone hrep hdeb)
      (hkept.booted.trans hboot) hbusy' hcrit hrf htxs (hbit ▸ hi.bitRange) (hq ▸ Nat.zero_le _) (hkept.nv ▸ hi.storage)

/-- FrameStart of a due job. -/
theorem inv_frameStart {s : State} (hi : Inv s) (hboot : s.booted = true) (hrep : s.rep ≠ 0) (hdeb : s.deb = 0) :
    Inv (frameStart s.cw s) := by
  obtain ⟨hf, -, -, -, hcw, hrep', hbusy, hkept⟩ := frameStart_frameInv s
  exact hi.inFrame hboot hrep hdeb hkept hcw hrep' hbusy hf

/-! ## The other kinds of step -/

/-- No invariant speaks of the environment's side of the ports. -/
theorem Inv.withPorts {s : State} (hi : Inv s) (w : List Report) (n : Nat) (env : List EnvCycle) :
    Inv { s with wrQueue := w, rdWaiting := n, env := env } where
  repRange := hi.repRange
  debRange := hi.debRange
  idleCw := hi.idleCw
  idleDeb := hi.idleDeb
  jobNibble := hi.jobNibble
  quiet := hi.quiet
  critBusy := hi.critBusy
  frame hbusy := by
    obtain ⟨hboot, hrep, hdeb, ⟨hrun, hlevel, hwindow, hhold, hbits, hafter⟩⟩ := hi.frame hbusy
    exact ⟨hboot, hrep, hdeb, ⟨hrun, hlevel, hwindow, hhold, hbits, hafter⟩⟩
  unbooted := hi.unbooted
  bitRange := hi.bitRange
  quantaRange := hi.quantaRange
  storage := hi.storage

theorem inv_boot {s : State} (hi : Inv s) (hboot : s.booted = false) : Inv (boot s) := by
  obtain ⟨-, -, hbusy⟩ := hi.unbooted hboot
  obtain ⟨hcrit, hrf, htxs⟩ := hi.quiet hbusy
  rw [boot_eq]
  exact inv_betweenFrames hi.jobLegal rfl hbusy hcrit hrf htxs hi.bitRange hi.quantaRange hi.storage

theorem inv_emit {s : State} (hi : Inv s) (hr : ready s = true) (e : Event) : Inv (emit e s) :=
  (hi.of_sameLevels (t := emit e s) hr ⟨rfl, rfl, rfl, rfl, rfl, rfl, rfl, rfl, rfl⟩ hi.jobLegal hi.storage).1

theorem inv_write {i : Instr} {s t : State} (hi : Inv s) (hr : ready s = true) (h : exec i s = .next t) :
    Inv (emit .ack t) := by
  obtain ⟨hjob, hnv⟩ := exec_jobLegal_wf h hi.jobLegal hi.storage
  obtain ⟨hi', hr'⟩ := hi.of_sameLevels hr (exec_sameLevels h) hjob hnv
  exact inv_emit hi' hr' .ack

/-- A tick that sends no frame is whole at once (44_scheduler.md R180). -/
theorem tickStart_eq_tickWhole {s : State} (h : s.rep = 0 ∨ s.deb ≠ 0) : tickStart s = tickWhole s := by
  by_cases hrep : s.rep = 0
  · rw [tickStart_idle hrep, tickWhole_idle hrep]
  · have hdeb := h.resolve_left hrep
    rw [tickStart_debouncing hrep hdeb, tickWhole_debouncing hrep hdeb]

theorem inv_tickStart {s : State} (hi : Inv s) (hr : ready s = true) : Inv (tickStart s) := by
  by_cases hframeless : s.rep = 0 ∨ s.deb ≠ 0
  · rw [tickStart_eq_tickWhole hframeless]
    exact (inv_tickWhole hi hr).1
  · obtain ⟨hrep, hdeb⟩ := not_or.mp hframeless
    have hdeb := not_not.mp hdeb
    rw [tickStart_transmitting hrep hdeb]
    exact inv_frameStart (inv_emit hi hr .wdtKick) ((ready_iff s).mp hr).1 hrep hdeb

/-- Settles O40, one lemma for each kind of step. -/
theorem everyStepKeepsInvariant : Obligations.EveryStepKeepsInvariant := by
  unfold Obligations.EveryStepKeepsInvariant
  intro s t hi h
  have hoffers : Inv (takeOffers (currentCycle s) s) := hi.withPorts _ _ _
  have haccepted : ∀ rest, Inv (acceptedState s rest) := fun rest => hi.withPorts _ _ _
  rcases step_cases s with ⟨p, -, h'⟩ | ⟨-, hboot, h'⟩ | ⟨-, -, hbusy, h'⟩ | ⟨r, rest, u, ⟨-, hboot, hbusy, -⟩, hexec, h'⟩ |
    ⟨-, hboot, hbusy, -, -, h'⟩ | ⟨-, hboot, hbusy, -, -, -, h'⟩ | ⟨-, -, -, -, -, -, h'⟩ <;>
    obtain rfl : _ = t := by simpa [h'] using h
  · exact inv_resetCycle p hoffers.storage
  · exact inv_boot hoffers hboot
  · exact inv_qStep hoffers hbusy
  · exact inv_write (haccepted rest) ((ready_iff _).mpr ⟨hboot, hbusy⟩) hexec
  · exact inv_emit (hi.withPorts [] (s.rdWaiting + (currentCycle s).rd.toNat - 1) s.env.tail)
      ((ready_iff _).mpr ⟨hboot, hbusy⟩) _
  · exact inv_tickStart (haccepted []) ((ready_iff _).mpr ⟨hboot, hbusy⟩)
  · exact haccepted []

/-! ## MASK over a sequence of operations -/

/-- A command leaves MASK what its action makes of it, if it has one (10_state.md R22). -/
theorem exec_mask {i : Instr} {s t : State} (h : exec i s = .next t) :
    t.mask = i.action.elim s.mask (maskAfter · s.mask) := by
  obtain ⟨act, hact, rfl⟩ | ⟨a, rfl, rfl⟩ | ⟨rfl, rfl⟩ := exec_cases h
  · simp [hact]
  · simp [Instr.action]
  · rfl

/-- One bit of MASK after a command: the level the command commands for it, else as it was. -/
theorem exec_mask_bit {c : Instr} {s t : State} (h : exec c s = .next t) {i : Nat} (hi : i < 4) :
    t.mask.getLsbD i = (c.action.bind (commandsBit i)).getD (s.mask.getLsbD i) := by
  rw [exec_mask h]
  cases c.action with
  | none => rfl
  | some act => exact maskAfter_bit act s.mask i hi

theorem tickWhole_mask (s : State) : (tickWhole s).mask = s.mask := by
  by_cases hrep : s.rep = 0
  · rw [tickWhole_idle hrep]
    rfl
  · by_cases hdeb : s.deb = 0
    · rw [tickWhole_transmitting hrep hdeb]
      rfl
    · rw [tickWhole_debouncing hrep hdeb]
      rfl

/-- One operation leaves each bit of MASK at the level it commanded. -/
theorem runOp_mask_bit {o : Op} {s t : State} (h : runOp o s = some t) {i : Nat} (hi : i < 4) :
    t.mask.getLsbD i = lastCommanded i [o] (s.mask.getLsbD i) := by
  have hready : o ≠ .reset → ready s = true := fun ho => by
    cases hr : ready s with
    | true => rfl
    | false => rw [runOp_eq_none hr ho] at h; cases h
  cases o with
  | reset =>
    obtain rfl : resetOp s = t := Option.some.inj h
    exact BitVec.getLsbD_zero
  | write r =>
    obtain ⟨u, hexec, hrun⟩ := runOp_write r (hready (by simp))
    obtain rfl : emit .ack u = t := Option.some.inj (hrun.symm.trans h)
    exact exec_mask_bit hexec hi
  | read =>
    obtain rfl : readOp s = t := Option.some.inj ((if_pos (hready (by simp))).symm.trans h)
    rfl
  | tick =>
    obtain rfl : tickWhole s = t := Option.some.inj ((runOp_tick (hready (by simp))).symm.trans h)
    rw [tickWhole_mask]
    rfl

theorem lastCommanded_cons (i : Nat) (o : Op) (os : List Op) (b : Bool) :
    lastCommanded i (o :: os) b = lastCommanded i os (lastCommanded i [o] b) := by
  cases o <;> rfl

/-- Settles O47, by induction on the operations. -/
theorem maskShowsLastCommanded : Obligations.MaskShowsLastCommanded := by
  unfold Obligations.MaskShowsLastCommanded
  intro os s t i hi h
  induction os generalizing s with
  | nil =>
    obtain rfl : s = t := Option.some.inj h
    rfl
  | cons o os ih =>
    rw [runOps] at h
    cases ho : runOp o s with
    | none => rw [ho] at h; cases h
    | some u =>
      rw [ho] at h
      rw [lastCommanded_cons, ← runOp_mask_bit ho hi]
      exact ih u h

/-! ## A busy block -/

theorem currentCycle_setEnv (c : EnvCycle) (env : List EnvCycle) (s : State) :
    currentCycle (setEnv (c :: env) s) = c := rfl

/-- The tick strobe is no offer, and the offers of a cycle are all that is taken in of it. -/
theorem takeOffers_setEnv {s : State} {c : EnvCycle} (hwr : c.wr = (currentCycle s).wr) (hrd : c.rd = (currentCycle s).rd) :
    takeOffers c (setEnv (c :: s.env.tail) s) = takeOffers (currentCycle s) s := by
  simp [takeOffers, hwr, hrd, setEnv, setHost]

/-- Settles O28: a busy block performs one quantum, which reads neither the ports nor the strobe. -/
theorem busyBlockTakesNothing : Obligations.BusyBlockTakesNothing := by
  unfold Obligations.BusyBlockTakesNothing
  intro s hboot hbusy hrst
  have hq := qStep_frame (takeOffers (currentCycle s) s)
  refine ⟨_, step_busy hboot hbusy hrst, hq.wrQueue, hq.rdWaiting, hq.addr, hq.mask, hq.nv, hq.deb,
    hq.booted.trans hboot, qStep_job _, fun c hc hwr hrd => ?_⟩
  have hstep := step_busy (s := setEnv (c :: s.env.tail) s) hboot hbusy hc
  rwa [currentCycle_setEnv, takeOffers_setEnv hwr hrd] at hstep

/-! ## What changes MASK and ADDR -/

theorem tickStart_mask_addr (s : State) : (tickStart s).mask = s.mask ∧ (tickStart s).addr = s.addr := by
  by_cases hrep : s.rep = 0
  · rw [tickStart_idle hrep]
    exact ⟨rfl, rfl⟩
  · by_cases hdeb : s.deb = 0
    · obtain ⟨-, -, -, -, -, -, -, hframe⟩ := frameStart_frameInv (emit .wdtKick s)
      rw [tickStart_transmitting hrep hdeb]
      exact ⟨hframe.mask, hframe.addr⟩
    · rw [tickStart_debouncing hrep hdeb]
      exact ⟨rfl, rfl⟩

/-- Four kinds of step as to MASK and ADDR: a reset, a boot load, a report taken, and those that keep both
(10_state.md R21, R22). -/
theorem step_mask_addr_cases {s t : State} (h : step s = .next t) :
    (∃ p, (currentCycle s).rst = some p) ∨
    (s.booted = false ∧ t.mask = s.mask) ∨
    (∃ r rest u, takes s r rest ∧ exec (decode r) (acceptedState s rest) = .next u ∧ t = emit .ack u) ∨
    (t.mask = s.mask ∧ t.addr = s.addr) := by
  rcases step_cases s with ⟨p, hrst, -⟩ | ⟨-, hboot, h'⟩ | ⟨-, -, -, h'⟩ | ⟨r, rest, u, htakes, hexec, h'⟩ |
    ⟨-, -, -, -, -, h'⟩ | ⟨-, -, -, -, -, -, h'⟩ | ⟨-, -, -, -, -, -, h'⟩
  · exact .inl ⟨p, hrst⟩
  all_goals obtain rfl : _ = t := by simpa [h'] using h
  · exact .inr (.inl ⟨hboot, rfl⟩)
  · have hq := qStep_frame (takeOffers (currentCycle s) s)
    exact .inr (.inr (.inr ⟨hq.mask, hq.addr⟩))
  · exact .inr (.inr (.inl ⟨r, rest, u, htakes, hexec, rfl⟩))
  · exact .inr (.inr (.inr ⟨rfl, rfl⟩))
  · exact .inr (.inr (.inr (tickStart_mask_addr (acceptedState s []))))
  · exact .inr (.inr (.inr ⟨rfl, rfl⟩))

/-- Settles O43: among the reports taken, those without an action keep MASK. -/
theorem onlySocketCommandsChangeMask : Obligations.OnlySocketCommandsChangeMask := by
  unfold Obligations.OnlySocketCommandsChangeMask
  intro s t h hne
  rcases step_mask_addr_cases h with hrst | ⟨-, hmask⟩ | ⟨r, rest, u, htakes, hexec, rfl⟩ | ⟨hmask, -⟩
  · exact .inl hrst
  · exact absurd hmask hne
  · refine .inr ⟨r, rest, htakes, fun hnone => hne ?_⟩
    have hmask := exec_mask hexec
    rw [hnone] at hmask
    exact hmask
  · exact absurd hmask hne

/-- Settles O44: among the reports taken, only SET_SERIAL writes ADDR, and it writes all of it. -/
theorem onlyBootAndSetSerialChangeAddr : Obligations.OnlyBootAndSetSerialChangeAddr := by
  unfold Obligations.OnlyBootAndSetSerialChangeAddr
  intro s t h hne
  rcases step_mask_addr_cases h with hrst | ⟨hboot, -⟩ | ⟨r, rest, u, htakes, hexec, rfl⟩ | ⟨-, haddr⟩
  · exact .inl hrst
  · exact .inr (.inl hboot)
  · obtain ⟨act, -, rfl⟩ | ⟨a, hdec, rfl⟩ | ⟨-, rfl⟩ := exec_cases hexec
    · exact absurd rfl hne
    · exact .inr (.inr ⟨r, rest, a, htakes, hdec, rfl⟩)
    · exact absurd rfl hne
  · exact absurd haddr hne

/-! ## One TICK -/

/-- TICK does not read the coming cycles. -/
theorem tickWhole_setEnv (env : List EnvCycle) (s : State) : tickWhole (setEnv env s) = setEnv env (tickWhole s) := by
  by_cases hrep : s.rep = 0
  · rw [tickWhole_idle hrep, tickWhole_idle (s := setEnv env s) hrep]
    rfl
  · by_cases hdeb : s.deb = 0
    · rw [tickWhole_transmitting hrep hdeb, tickWhole_transmitting (s := setEnv env s) hrep hdeb]
      rfl
    · rw [tickWhole_debouncing hrep hdeb, tickWhole_debouncing (s := setEnv env s) hrep hdeb]
      rfl

/-- With nothing offered and nothing waiting, a ready block is left with the cycle used up. -/
theorem acceptedState_of_no_offer {s : State} (hoff : offeredReports s = [])
    (hrd : s.rdWaiting + (currentCycle s).rd.toNat = 0) : acceptedState s [] = setEnv s.env.tail s := by
  obtain ⟨hq, -⟩ := List.append_eq_nil_iff.mp hoff
  have hw : s.rdWaiting = 0 := (Nat.add_eq_zero_iff.mp hrd).1
  rw [acceptedState, hrd, ← hq, ← hw]
  rfl

/-- A ready block with nothing offered and nothing waiting: the tick, or nothing. -/
theorem step_no_offer {s : State} (hr : ready s = true) (hrst : (currentCycle s).rst = none)
    (hoff : offeredReports s = []) (hrd : s.rdWaiting + (currentCycle s).rd.toNat = 0) :
    step s = .next (if (currentCycle s).tick then tickStart (setEnv s.env.tail s) else setEnv s.env.tail s) := by
  obtain ⟨hboot, hbusy⟩ := (ready_iff s).mp hr
  have htaken : takeOffers (currentCycle s) s = setEnv s.env.tail s := by
    rw [← acceptedState_of_no_offer hoff hrd, ← hoff]
    rfl
  rw [step_accept hboot hbusy hrst, acceptCycle_tick _ _ hoff hrd, htaken]

/-- Settles O20, scheduler state by scheduler state, then the step of a cycle that offers nothing. -/
theorem tickDoesOneThing : Obligations.TickDoesOneThing := by
  unfold Obligations.TickDoesOneThing
  intro s hr
  rw [runOp_tick hr]
  refine ⟨fun hrep => ?_, fun hrep hdeb => ?_, fun hrep hdeb => ?_,
    fun hrst hoff hrd => ⟨fun htick hframeless => ?_, fun htick => ?_⟩⟩
  · rw [tickWhole_idle hrep]
    rfl
  · rw [tickWhole_debouncing hrep hdeb]
    rfl
  · have hlast : s.rep - 1 = 0 ↔ s.rep = 1 := by omega
    simp [tickWhole_transmitting hrep hdeb, setJob, setOutputs, emitAll, emit, hlast]
  · refine ⟨tickWhole s, rfl, ?_⟩
    rw [step_no_offer hr hrst hoff hrd, if_pos htick, tickStart_eq_tickWhole (s := setEnv s.env.tail s) hframeless,
      tickWhole_setEnv]
    rfl
  · rw [step_no_offer hr hrst hoff hrd, htick]
    rfl

end Sys2Proof.Machine
end

section
/-! PROOFS. The statements of 20_memory.md: what a new address leaves alone, that an address survives a power cycle, and
which steps and bytes a change of storage is confined to. -/

namespace Sys2Proof.Machine

/-! ## What leaves storage alone -/

/-- Only SET_SERIAL writes storage (20_memory.md R67). -/
theorem exec_nv {i : Instr} {s t : State} (h : exec i s = .next t) (hi : ∀ a, i ≠ .setSerial a) : t.nv = s.nv := by
  obtain ⟨act, -, rfl⟩ | ⟨a, ha, -⟩ | ⟨-, rfl⟩ := exec_cases h
  · rfl
  · exact absurd ha (hi a)
  · rfl

theorem tickStart_nv (s : State) : (tickStart s).nv = s.nv := by
  by_cases hrep : s.rep = 0
  · rw [tickStart_idle hrep]
    rfl
  · by_cases hdeb : s.deb = 0
    · obtain ⟨-, -, -, -, -, -, -, hframe⟩ := frameStart_frameInv (emit .wdtKick s)
      rw [tickStart_transmitting hrep hdeb]
      exact hframe.nv
    · rw [tickStart_debouncing hrep hdeb]
      rfl

/-- The atomic TICK of a ready block ends between frames, in every scheduler state, and writes no storage. -/
theorem tickWhole_ready_nv {s : State} (hr : ready s = true) :
    ready (tickWhole s) = true ∧ (tickWhole s).nv = s.nv := by
  by_cases hrep : s.rep = 0
  · rw [tickWhole_idle hrep]
    exact ⟨hr, rfl⟩
  · by_cases hdeb : s.deb = 0
    · rw [tickWhole_transmitting hrep hdeb]
      exact ⟨(ready_iff _).mpr ⟨((ready_iff s).mp hr).1, rfl⟩, rfl⟩
    · rw [tickWhole_debouncing hrep hdeb]
      exact ⟨hr, rfl⟩

/-! ## SET_SERIAL and the job -/

/-- Settles O17: SET_SERIAL writes ADDR and storage only, and a socket command encodes the ADDR it finds. -/
theorem newAddressIsForLaterCommands : Obligations.NewAddressIsForLaterCommands := by
  unfold Obligations.NewAddressIsForLaterCommands
  intro s t u a i hset hsocket hexec
  obtain ⟨act, hact⟩ := (isSocketCommand_iff i).mp hsocket
  rw [exec_setSerial, pairingSet_eq] at hset
  rw [exec_socket hact] at hexec
  cases hset
  cases hexec
  exact ⟨rfl, rfl, rfl, rfl, (codeword_fields a act).1⟩

/-! ## The round trip over a power cycle -/

/-- The atomic RESET leaves storage alone and loads ADDR from it (70_reset_and_hazards.md R241, R242). -/
theorem resetOp_storage (s : State) : (resetOp s).nv = s.nv ∧ (resetOp s).addr = loadedAddr s.nv := by
  have hnv := (enterReset_outside 0 s).1
  rw [resetOp, boot_eq]
  exact ⟨hnv, congrArg loadedAddr hnv⟩

theorem resetOp_mask (s : State) : (resetOp s).mask = 0 := rfl

/-- A WRITE of a ready block completes in a ready state. -/
theorem runOp_write_ready (r : Report) {s : State} (hr : ready s = true) :
    ∃ t, exec (decode r) s = .next t ∧ runOp (.write r) s = some (emit .ack t) ∧ ready (emit .ack t) = true := by
  obtain ⟨t, hexec, hrun⟩ := runOp_write r hr
  obtain ⟨hboot, hbusy⟩ := (ready_iff s).mp hr
  obtain ⟨hboot', hbusy', -⟩ := exec_ports hexec
  exact ⟨t, hexec, hrun, (ready_iff _).mpr ⟨hboot'.trans hboot, hbusy'.trans hbusy⟩⟩

/-- Every operation but a WRITE of SET_SERIAL leaves storage alone and a ready block ready. -/
theorem runOp_ready_nv {o : Op} {s : State} (hr : ready s = true) (ho : notSetSerial o) :
    ∃ t, runOp o s = some t ∧ ready t = true ∧ t.nv = s.nv := by
  cases o with
  | reset => exact ⟨resetOp s, rfl, ready_resetOp s, (resetOp_storage s).1⟩
  | write r =>
    obtain ⟨t, hexec, hrun, hready⟩ := runOp_write_ready r hr
    have hnv : t.nv = s.nv := exec_nv hexec ho
    exact ⟨emit .ack t, hrun, hready, hnv⟩
  | read => exact ⟨readOp s, if_pos hr, hr, rfl⟩
  | tick => exact ⟨tickWhole s, runOp_tick hr, tickWhole_ready_nv hr⟩

/-- The same over a sequence of operations. -/
theorem runOps_ready_nv {os : List Op} {s : State} (hr : ready s = true) (hos : ∀ o ∈ os, notSetSerial o) :
    ∃ t, runOps os s = some t ∧ ready t = true ∧ t.nv = s.nv := by
  induction os generalizing s with
  | nil => exact ⟨s, rfl, hr, rfl⟩
  | cons o os ih =>
    obtain ⟨ho, hos⟩ := List.forall_mem_cons.mp hos
    obtain ⟨t, hrun, hready, hnv⟩ := runOp_ready_nv hr ho
    obtain ⟨u, hruns, hready', hnv'⟩ := ih hready hos
    exact ⟨u, by rw [runOps, hrun]; exact hruns, hready', hnv'.trans hnv⟩

/-- Storage after SET_SERIAL loads as the address set (40_pairing_store.md R114). -/
theorem loadedAddr_withCopies (a : Addr) {m : Memory} (h : Memory.wf m) : loadedAddr (withCopies a m) = a :=
  loadedAddr_record _ a (readBytes_withCopies a m h 0 (by decide))

/-- Settles O38: storage stays as SET_SERIAL left it, by induction on the operations, and the last reset loads it. -/
theorem addressSurvivesPowerCycle : Obligations.AddressSurvivesPowerCycle := by
  unfold Obligations.AddressSurvivesPowerCycle
  intro s r a os hr hnv hdec hos
  obtain ⟨t, hexec, hwrite, hready⟩ := runOp_write_ready r hr
  obtain ⟨u, hruns, -, hkept⟩ := runOps_ready_nv hready hos
  have hstored : u.nv = withCopies a s.nv := by
    rw [hdec, exec_setSerial, pairingSet_eq] at hexec
    cases hexec
    exact hkept
  have hall : runOps (.write r :: os ++ [.reset]) s = some (resetOp u) := by
    rw [runOps_append, runOps, hwrite]
    dsimp only
    rw [hruns]
    rfl
  refine ⟨resetOp u, hall, ?_, resetOp_mask u⟩
  rw [(resetOp_storage u).2, hstored, loadedAddr_withCopies a hnv]

/-! ## Which bytes and which steps a change of storage is confined to -/

/-- Every byte outside the three copies reads as before (20_memory.md R62). -/
def SameOutsideCopies (m n : Memory) : Prop :=
  ∀ x, (∀ off ∈ Config.nvOffsets, ¬ inCopy off x) → Memory.read n x = Memory.read m x

/-- SET_SERIAL cut by a reset writes within the copies too, a torn copy included (70_reset_and_hazards.md R251). -/
theorem pairingSetCut_sameOutsideCopies (a : Addr) (c : Cut) (s : State) :
    SameOutsideCopies s.nv (pairingSetCut a c s).nv := by
  intro x hx
  have hdone : Memory.read (writeCopies (Config.nvOffsets.take c.copies) (recordOf a) s).nv x = Memory.read s.nv x := by
    rw [writeCopies_eq]
    exact read_copies_other _ _ _ _ rfl fun off hoff => hx off (List.mem_of_mem_take hoff)
  simp only [pairingSetCut]
  split
  · split
    · exact hdone
    · next off rest hdrop =>
      have hoff : off ∈ Config.nvOffsets := List.mem_of_mem_drop (hdrop ▸ List.mem_cons_self)
      exact (read_copies_other [off] _ _ _ rfl (by simpa using hx off hoff)).trans hdone
  · exact hdone

/-- A step leaves storage alone, or the first report on the port of a ready block is a SET_SERIAL, whole or cut by a reset,
and only the copies are written (20_memory.md R62, R67). -/
theorem step_nv_cases {s t : State} (h : step s = .next t) :
    t.nv = s.nv ∨
    (SameOutsideCopies s.nv t.nv ∧
      ∃ r rest a, offeredReports s = r :: rest ∧ decode r = .setSerial a ∧ ready s = true) := by
  rcases step_cases s with ⟨p, -, h'⟩ | ⟨-, -, h'⟩ | ⟨-, -, -, h'⟩ | ⟨r, rest, u, ⟨-, hboot, hbusy, hoff⟩, hexec, h'⟩ |
    ⟨-, -, -, -, -, h'⟩ | ⟨-, -, -, -, -, -, h'⟩ | ⟨-, -, -, -, -, -, h'⟩ <;>
    obtain rfl : _ = t := by simpa [h'] using h
  · have hreset : (resetCycle p (takeOffers (currentCycle s) s)).nv = (cutWrite p (takeOffers (currentCycle s) s)).nv :=
      (enterReset_outside _ _).1
    rw [hreset]
    rcases cutWrite_cases p (takeOffers (currentCycle s) s) with hcut | ⟨c, r, rest, a, -, hoff, hready, hdec, hcut⟩
    · rw [hcut]
      exact .inl rfl
    · rw [hcut]
      exact .inr ⟨pairingSetCut_sameOutsideCopies a c _, r, rest, a, hoff, hdec, hready⟩
  · exact .inl rfl
  · exact .inl (qStep_frame (takeOffers (currentCycle s) s)).nv
  · obtain ⟨act, -, rfl⟩ | ⟨a, hdec, rfl⟩ | ⟨-, rfl⟩ := exec_cases hexec
    · exact .inl rfl
    · exact .inr ⟨fun x hx => read_withCopies_other a s.nv x hx, r, rest, a, hoff, hdec, (ready_iff s).mpr ⟨hboot, hbusy⟩⟩
    · exact .inl rfl
  · exact .inl rfl
  · exact .inl (tickStart_nv (acceptedState s []))
  · exact .inl rfl

/-- Settles O45, kind of step by kind of step. -/
theorem onlyTheNineBytesChange : Obligations.OnlyTheNineBytesChange := by
  unfold Obligations.OnlyTheNineBytesChange
  intro s t h
  rcases step_nv_cases h with hnv | ⟨hother, hset⟩
  · exact ⟨fun x _ => by rw [hnv], fun hne => absurd hnv hne⟩
  · exact ⟨hother, fun _ => hset⟩

end Sys2Proof.Machine
end

section
/-! PROOFS. The statements of 30_encoding.md: the port word of a report, which reports decode to which command, the opcode
table, the codeword, and the events and levels of a frame. -/

namespace Sys2Proof.Machine

/-! ## The port word of a report -/

/-- The port word as a number: byte i has the weight 256 ^ i (30_encoding.md R80). -/
theorem word_toNat (r : Report) :
    r.word.toNat = r.b0.toNat + 256 * (r.b1.toNat + 256 * (r.b2.toNat + 256 * (r.b3.toNat + 256 * (r.b4.toNat +
      256 * (r.b5.toNat + 256 * (r.b6.toNat + 256 * r.b7.toNat)))))) := by
  simp only [Report.word, append_toNat]
  omega

/-- Nothing of a report is lost in its port word (30_encoding.md R80). -/
theorem ofWord_word (r : Report) : Report.ofWord r.word = r := by
  obtain ⟨b0, b1, b2, b3, b4, b5, b6, b7⟩ := r
  simp only [Report.ofWord, Report.mk.injEq]
  refine ⟨?_, ?_, ?_, ?_, ?_, ?_, ?_, ?_⟩ <;> apply BitVec.eq_of_toNat_eq <;>
    simp only [field_toNat, word_toNat] <;> omega

/-- Nothing of a port word is lost in its report (30_encoding.md R80). -/
theorem word_ofWord (w : Word64) : (Report.ofWord w).word = w := by
  apply BitVec.eq_of_toNat_eq
  simp only [word_toNat, Report.ofWord, field_toNat]
  omega

/-- Settles O2: a report is the eight bytes of its word, and both ways round nothing is lost. -/
theorem reportWordLayout : Obligations.ReportWordLayout := by
  unfold Obligations.ReportWordLayout
  refine ⟨fun r => ?_, word_ofWord⟩
  have h := ofWord_word r
  obtain ⟨h0, h1, h2, h3, h4, h5, h6, h7⟩ := Report.mk.inj h
  exact ⟨h0, h1, h2, h3, h4, h5, h6, h7, h⟩

/-- The port word of a report is read back as the report (30_encoding.md R80, log 15). -/
theorem decodeTableWord_word (r : Report) : decodeTableWord 64 r.word.toNat = some (decode r) := by
  rw [decodeTableWord, Nat.mod_eq_of_lt r.word.isLt, BitVec.ofNat_toNat, BitVec.setWidth_eq, ofWord_word]

/-! ## Decoding the encoded instruction -/

theorem decode_encode (i : Instr) : decode (encode i) = i := by
  cases i with
  | setSerial a => exact (decode_setSerial rfl).trans (by simp only [encode, parseAddr_hexChars])
  | _ => decide

/-- Settles O3: the digits HexChar makes are read back, and a table word is decoded as its report. -/
theorem decodeOfEncodeIsTheInstruction : Obligations.DecodeOfEncodeIsTheInstruction := by
  unfold Obligations.DecodeOfEncodeIsTheInstruction
  intro i _
  exact ⟨decode_encode i, by rw [decodeTableWord_word, decode_encode]⟩

/-! ## Which report decodes to which command -/

/-- The report carries no command: an unknown opcode, an index that names no socket, or a payload that does not parse
(30_encoding.md R83). -/
def NoCommand (r : Report) : Prop :=
  (r.b0 ≠ 0xFE ∧ r.b0 ≠ 0xFC ∧ r.b0 ≠ 0xFF ∧ r.b0 ≠ 0xFD ∧ r.b0 ≠ 0xFA) ∨
  ((r.b0 = 0xFF ∨ r.b0 = 0xFD) ∧ (r.b1 = 0 ∨ 4 < r.b1)) ∨
  (r.b0 = 0xFA ∧ parseAddr r.b1 r.b2 r.b3 r.b4 r.b5 r.b6 r.b7 = none)

/-- The six forms of a report, and what each decodes to (30_encoding.md R83). -/
inductive DecodesTo (r : Report) : Instr → Prop
  | allOn (h0 : r.b0 = 0xFE) : DecodesTo r .allOn
  | allOff (h0 : r.b0 = 0xFC) : DecodesTo r .allOff
  | on (k : Socket) (h0 : r.b0 = 0xFF) (h1 : r.b1 = BitVec.ofNat 8 k.index) : DecodesTo r (onInstr k)
  | off (k : Socket) (h0 : r.b0 = 0xFD) (h1 : r.b1 = BitVec.ofNat 8 k.index) : DecodesTo r (offInstr k)
  | setSerial (a : Addr) (h0 : r.b0 = 0xFA) (hp : parseAddr r.b1 r.b2 r.b3 r.b4 r.b5 r.b6 r.b7 = some a) :
    DecodesTo r (.setSerial a)
  | ignored (hno : NoCommand r) : DecodesTo r .ignored

/-- Every report has one of the six forms. -/
theorem decodesTo_decode (r : Report) : DecodesTo r (decode r) := by
  by_cases hAllOn : r.b0 = 0xFE
  · exact decode_allOn hAllOn ▸ .allOn hAllOn
  by_cases hAllOff : r.b0 = 0xFC
  · exact decode_allOff hAllOff ▸ .allOff hAllOff
  by_cases hOn : r.b0 = 0xFF
  · rw [decode_on hOn]
    cases hk : socketOfIndex r.b1 with
    | some k => exact .on k hOn ((socketOfIndex_eq_some _ _).mp hk)
    | none => exact .ignored (.inr (.inl ⟨.inl hOn, (socketOfIndex_eq_none _).mp hk⟩))
  by_cases hOff : r.b0 = 0xFD
  · rw [decode_off hOff]
    cases hk : socketOfIndex r.b1 with
    | some k => exact .off k hOff ((socketOfIndex_eq_some _ _).mp hk)
    | none => exact .ignored (.inr (.inl ⟨.inr hOff, (socketOfIndex_eq_none _).mp hk⟩))
  by_cases hSet : r.b0 = 0xFA
  · rw [decode_setSerial hSet]
    cases hp : parseAddr r.b1 r.b2 r.b3 r.b4 r.b5 r.b6 r.b7 with
    | some a => exact .setSerial a hSet hp
    | none => exact .ignored (.inr (.inr ⟨hSet, hp⟩))
  rw [decode_unknown hAllOn hAllOff hOn hOff hSet]
  exact .ignored (.inl ⟨hAllOn, hAllOff, hOn, hOff, hSet⟩)

/-- No socket has an index outside 1..4 (30_encoding.md R85). -/
theorem index_ne_of_invalid {b : Byte} (h : b = 0 ∨ 4 < b) : b ≠ 1 ∧ b ≠ 2 ∧ b ≠ 3 ∧ b ≠ 4 := by
  revert b; decide

/-- Settles O4: the six forms of a report exclude each other. -/
theorem everyReportDecodesToOneCommand : Obligations.EveryReportDecodesToOneCommand := by
  unfold Obligations.EveryReportDecodesToOneCommand
  intro r
  have hform := decodesTo_decode r
  generalize decode r = i at hform ⊢
  cases hform with
  | allOn h0 => simp [h0]
  | allOff h0 => simp [h0]
  | on k h0 h1 => cases k <;> simp [h0, h1, onInstr, Socket.index]
  | off k h0 h1 => cases k <;> simp [h0, h1, offInstr, Socket.index]
  | setSerial a h0 hp => simp [h0, hp]
  | ignored hno =>
    rcases hno with ⟨g1, g2, g3, g4, g5⟩ | ⟨h0 | h0, h1⟩ | ⟨h0, hp⟩
    · simp_all
    · obtain ⟨n1, n2, n3, n4⟩ := index_ne_of_invalid h1
      simp_all
    · obtain ⟨n1, n2, n3, n4⟩ := index_ne_of_invalid h1
      simp_all
    · simp [h0, hp]

/-- Settles O5: each opcode's decoding reads only the bytes named. -/
theorem unexaminedBytesDoNotMatter : Obligations.UnexaminedBytesDoNotMatter := by
  unfold Obligations.UnexaminedBytesDoNotMatter
  intro r q h0
  refine ⟨?_, ?_, ?_⟩
  · rintro (h | h)
    · rw [decode_allOn h, decode_allOn (h0 ▸ h)]
    · rw [decode_allOff h, decode_allOff (h0 ▸ h)]
  · rintro (h | h) h1
    · rw [decode_on h, decode_on (h0 ▸ h), h1]
    · rw [decode_off h, decode_off (h0 ▸ h), h1]
  · intro h h1 h2 h3 h4 h5
    have hp : parseAddr r.b1 r.b2 r.b3 r.b4 r.b5 r.b6 r.b7 = parseAddr q.b1 q.b2 q.b3 q.b4 q.b5 q.b6 q.b7 := by
      rw [h1, h2, h3, h4, h5]
      rfl
    rw [decode_setSerial h, decode_setSerial (h0 ▸ h), hp]

/-! ## The opcode table -/

/-- A row whose mask is the low n bits selects by the word modulo 2 ^ n. -/
theorem selects_low_mask {row : OpcodeRow} {n : Nat} (hm : row.maskBits.toNat = 2 ^ n - 1) (w : Word64) :
    row.selects w = true ↔ w.toNat % 2 ^ n = row.matchBits.toNat := by
  rw [OpcodeRow.selects, beq_iff_eq, ← BitVec.toNat_inj, BitVec.toNat_and, hm, Nat.and_two_pow_sub_one_eq_mod]

/-- A row that masks the opcode byte selects by it. -/
theorem selects_opcode {row : OpcodeRow} {o : Byte} (hm : row.maskBits = 0xFF) (ho : row.matchBits.toNat = o.toNat)
    (r : Report) : row.selects r.word = true ↔ r.b0 = o := by
  rw [selects_low_mask (n := 8) (by rw [hm]; rfl), ho, word_toNat, ← BitVec.toNat_inj]
  omega

/-- A row that masks the opcode byte and the index byte selects by the two. -/
theorem selects_opcode_index {row : OpcodeRow} {o x : Byte} (hm : row.maskBits = 0xFFFF)
    (hx : row.matchBits.toNat = o.toNat + 256 * x.toNat) (r : Report) :
    row.selects r.word = true ↔ r.b0 = o ∧ r.b1 = x := by
  rw [selects_low_mask (n := 16) (by rw [hm]; rfl), hx, word_toNat, ← BitVec.toNat_inj, ← BitVec.toNat_inj]
  omega

/-- A primary row selects exactly the reports that decode to its command. -/
theorem selects_primary {i : Instr} (hi : i ∈ primaryInstrs) (r : Report) :
    (opcodeRow i).selects r.word = true ↔ decode r = i := by
  obtain ⟨hAllOn, hAllOff, h1, h2, h3, h4, h5, h6, h7, h8, -⟩ := everyReportDecodesToOneCommand r
  cases i with
  | allOn => exact (selects_opcode rfl rfl r).trans hAllOn.symm
  | allOff => exact (selects_opcode rfl rfl r).trans hAllOff.symm
  | on1 => exact (selects_opcode_index rfl rfl r).trans h1.symm
  | on2 => exact (selects_opcode_index rfl rfl r).trans h2.symm
  | on3 => exact (selects_opcode_index rfl rfl r).trans h3.symm
  | on4 => exact (selects_opcode_index rfl rfl r).trans h4.symm
  | off1 => exact (selects_opcode_index rfl rfl r).trans h5.symm
  | off2 => exact (selects_opcode_index rfl rfl r).trans h6.symm
  | off3 => exact (selects_opcode_index rfl rfl r).trans h7.symm
  | off4 => exact (selects_opcode_index rfl rfl r).trans h8.symm
  | setSerial a => simp [primaryInstrs] at hi
  | ignored => simp [primaryInstrs] at hi

/-- The two commands that are not primary: SET_SERIAL has its opcode, anything else is IGNORED. -/
theorem decode_fallback {r : Report} (h : decode r ∉ primaryInstrs) (h0 : r.b0 ≠ 0xFA) : decode r = .ignored := by
  have hform := decodesTo_decode r
  generalize decode r = i at hform h ⊢
  cases hform with
  | allOn _ => simp [primaryInstrs] at h
  | allOff _ => simp [primaryInstrs] at h
  | on k _ _ => cases k <;> simp [primaryInstrs, onInstr] at h
  | off k _ _ => cases k <;> simp [primaryInstrs, offInstr] at h
  | setSerial _ ha _ => exact absurd ha h0
  | ignored _ => rfl

theorem decodeByTable_eq_decode (r : Report) : decodeByTable r = decode r := by
  unfold decodeByTable
  cases hfind : primaryInstrs.find? (fun i => (opcodeRow i).selects r.word) with
  | some i =>
    have hsel := List.find?_some hfind
    exact ((selects_primary (List.mem_of_find?_eq_some hfind) r).mp hsel).symm
  | none =>
    have hprimary : decode r ∉ primaryInstrs := fun hmem =>
      List.find?_eq_none.mp hfind _ hmem ((selects_primary hmem r).mpr rfl)
    have hrow : (opcodeRow (.setSerial 0)).selects r.word = true ↔ r.b0 = 0xFA := selects_opcode rfl rfl r
    by_cases h0 : r.b0 = 0xFA
    · exact (if_pos (hrow.mpr h0)).trans (decode_setSerial h0).symm
    · exact (if_neg (mt hrow.mp h0)).trans (decode_fallback hprimary h0).symm

/-- Settles O7: a primary row selects the reports of its command, so no word has two. -/
theorem decoderAgreesWithOpcodeTable : Obligations.DecoderAgreesWithOpcodeTable := by
  unfold Obligations.DecoderAgreesWithOpcodeTable
  refine ⟨decodeByTable_eq_decode, ?_⟩
  have hdistinct : primaryInstrs.Pairwise (· ≠ ·) := by decide
  refine hdistinct.imp_of_mem fun hi hj hne w ⟨hiw, hjw⟩ => hne ?_
  rw [← word_ofWord w] at hiw hjw
  exact ((selects_primary hi _).mp hiw).symm.trans ((selects_primary hj _).mp hjw)

/-! ## The codeword -/

/-- The table uses none of the other six nibbles (30_encoding.md R89). -/
theorem nibbleOf_notMem (act : Action) : nibbleOf act ∉ ([0x0, 0x1, 0x4, 0x5, 0x8, 0x9] : List Nibble) := by
  cases act with
  | allOn => decide
  | allOff => decide
  | on k => cases k <;> decide
  | off k => cases k <;> decide

/-- Settles O8, by the two fields of a codeword. -/
theorem codewordIsAddressAndNibble : Obligations.CodewordIsAddressAndNibble := by
  unfold Obligations.CodewordIsAddressAndNibble
  refine ⟨fun a act => ?_, rfl, rfl, rfl, rfl, rfl, rfl, rfl, rfl, rfl, rfl⟩
  obtain ⟨haddr, hnibble⟩ := codeword_fields a act
  refine ⟨haddr, hnibble, encodeCodeword_toNat a act, fun n hn heq => nibbleOf_notMem act ?_⟩
  rwa [← hnibble, heq]

/-! ## The events and the levels of a frame -/

/-- Reading a list that grows by blocks of one length, the newest in front: entry `j` of the `k`-th block from the front. -/
theorem getElem?_blocks {α : Type} {g f : Nat → List α} {len : Nat} (hg : ∀ n, g (n + 1) = f n ++ g n)
    (hlen : ∀ n, (f n).length = len) {n k j : Nat} (hk : k < n) (hj : j < len) :
    (g n)[len * k + j]? = (f (n - 1 - k))[j]? := by
  induction n generalizing k with
  | zero => omega
  | succ n ih =>
    rw [hg]
    cases k with
    | zero =>
      rw [Nat.mul_zero, Nat.zero_add, List.getElem?_append_left (by rw [hlen]; exact hj)]
      rfl
    | succ k =>
      have hpast : len * (k + 1) + j - len = len * k + j := by rw [Nat.mul_succ]; omega
      have hblock : n + 1 - 1 - (k + 1) = n - 1 - k := by omega
      rw [List.getElem?_append_right (by rw [hlen, Nat.mul_succ]; omega), hlen, hpast, hblock, ih (by omega)]

@[simp] theorem symbol_length (b : Bool) : (symbol b).length = 2 := by cases b <;> rfl

@[simp] theorem durations_symbol (b : Bool) :
    durations (symbol b) = [if b then 600 else 200, if b then 200 else 600] := by cases b <;> rfl

@[simp] theorem levelsEvery_symbol (b : Bool) : levelsEvery 200 (symbol b) = symbolLevels b := by cases b <;> rfl

/-- A symbol in quanta: high, the bit twice, low (42_rf_transmitter.md R138). -/
theorem symbolLevels_eq (b : Bool) : symbolLevels b = [true, b, b, false] := by cases b <;> rfl

@[simp] theorem symbols_length (cw : Codeword) (n : Nat) : (symbols cw n).length = 2 * n := by
  induction n with
  | zero => rfl
  | succ n ih => simp [symbols, ih]; omega

@[simp] theorem durations_symbols_length (cw : Codeword) (n : Nat) : (durations (symbols cw n)).length = 2 * n := by
  induction n with
  | zero => rfl
  | succ n ih => simp [symbols, ih]; omega

/-- A symbol lasts 800 µs whatever its bit (30_encoding.md R91). -/
@[simp] theorem durations_symbols_sum (cw : Codeword) (n : Nat) : (durations (symbols cw n)).sum = 800 * n := by
  induction n with
  | zero => rfl
  | succ n ih => cases h : cw.getLsbD n <;> simp [symbols, ih, h] <;> omega

@[simp] theorem levelsEvery_symbols (cw : Codeword) (n : Nat) :
    levelsEvery 200 (symbols cw n) = symbolsLevels cw n := by
  induction n with
  | zero => rfl
  | succ n ih => simp [symbols, symbolsLevels, ih]

@[simp] theorem symbolsLevels_length (cw : Codeword) (n : Nat) : (symbolsLevels cw n).length = 4 * n := by
  induction n with
  | zero => rfl
  | succ n ih => simp [symbolsLevels, symbolLevels_eq, ih]; omega

/-- A 1 is high for three quanta, a 0 for one (30_encoding.md R91). -/
theorem symbolsLevels_count_true (cw : Codeword) (n : Nat) :
    (symbolsLevels cw n).count true = n + 2 * ((List.range n).filter (fun i => cw.getLsbD i)).length := by
  induction n with
  | zero => rfl
  | succ n ih =>
    cases h : cw.getLsbD n <;>
      simp [symbolsLevels, symbolLevels_eq, List.range_succ, ih, h] <;> omega

/-- The two durations of the k-th symbol are those of bit n - 1 - k (42_rf_transmitter.md R137). -/
theorem durations_symbols_getElem? (cw : Codeword) {n k j : Nat} (hk : k < n) (hj : j < 2) :
    (durations (symbols cw n))[2 * k + j]? = (durations (symbol (cw.getLsbD (n - 1 - k))))[j]? :=
  getElem?_blocks (g := fun n => durations (symbols cw n)) (f := fun n => durations (symbol (cw.getLsbD n)))
    (fun _ => durations_append _ _) (fun _ => by simp) hk hj

/-- The four levels of the k-th symbol are those of bit n - 1 - k (42_rf_transmitter.md R138). -/
theorem symbolsLevels_getElem? (cw : Codeword) {n k j : Nat} (hk : k < n) (hj : j < 4) :
    (symbolsLevels cw n)[4 * k + j]? = [true, cw.getLsbD (n - 1 - k), cw.getLsbD (n - 1 - k), false][j]? := by
  rw [← symbolLevels_eq]
  exact getElem?_blocks (f := fun n => symbolLevels (cw.getLsbD n)) (fun _ => rfl)
    (fun _ => by simp [symbolLevels_eq]) hk hj

/-- The holds of the symbols alternate, from high (42_rf_transmitter.md R136). -/
theorem symbols_alternate (cw : Codeword) {n k : Nat} (hk : k < 2 * n) :
    ∃ us, (symbols cw n)[k]? = some (.rf (k % 2 == 0) us) := by
  have hblock : (symbols cw n)[2 * (k / 2) + k % 2]? = (symbol (cw.getLsbD (n - 1 - k / 2)))[k % 2]? :=
    getElem?_blocks (f := fun n => symbol (cw.getLsbD n)) (fun _ => rfl) (fun _ => symbol_length _) (by omega) (by omega)
  rw [Nat.div_add_mod] at hblock
  rw [hblock]
  rcases Nat.mod_two_eq_zero_or_one k with h | h <;> rw [h] <;> cases cw.getLsbD (n - 1 - k / 2) <;> exact ⟨_, rfl⟩

/-- A frame: CritOn, the symbols of the 24 bits, the sync pulse, and what follows it (42_rf_transmitter.md R136). -/
theorem wave_eq (cw : Codeword) :
    wave cw = Event.critOn :: (symbols cw 24 ++ [Event.rf true 200]) ++ [Event.critOff, .wdtKick, .rf false 30000] := by
  simp [wave, waveOf, Config.txBits, Config.tSync, Config.tGap]

theorem durations_wave (cw : Codeword) : durations (wave cw) = durations (symbols cw 24) ++ [200, 30000] := by
  simp [wave_eq]

theorem qSeq_eq (cw : Codeword) : qSeq cw = symbolsLevels cw 24 ++ (true :: List.replicate 150 false) := by
  simp [qSeq, Config.txBits, Config.gapQuanta]

theorem levelsEvery_wave (cw : Codeword) : levelsEvery 200 (wave cw) = qSeq cw := by
  simp [wave_eq, qSeq_eq]

/-- Settles O24, the symbols first, then the sync pulse and the gap. -/
theorem shapeOfAFrame : Obligations.ShapeOfAFrame := by
  unfold Obligations.ShapeOfAFrame
  intro cw
  refine ⟨by simp [wave_eq], ⟨_, wave_eq cw, by simp, by simp, fun k hk => ?_⟩, by simp [durations_wave],
    by simp [durations_wave], ?_, fun k hk => ?_⟩
  · by_cases h : k < 48
    · rw [List.getElem?_append_left (by simpa using h)]
      exact symbols_alternate cw h
    · obtain rfl : k = 48 := by omega
      exact ⟨200, by simp⟩
  · rw [levelsEvery_wave, qSeq_eq, List.count_append, symbolsLevels_count_true, ← onesOf,
      List.count_cons_self, List.count_replicate, if_neg (by decide)]
    omega
  · rw [durations_wave, List.getElem?_append_left (by simp; omega), List.getElem?_append_left (by simp; omega)]
    have h0 := durations_symbols_getElem? cw hk (j := 0) (by omega)
    have h1 := durations_symbols_getElem? cw hk (j := 1) (by omega)
    exact ⟨by simpa using h0, by simpa using h1⟩

/-- Settles O25, the symbols first, then the sync pulse and the gap. -/
theorem quantaOfAFrame : Obligations.QuantaOfAFrame := by
  unfold Obligations.QuantaOfAFrame
  intro cw
  refine ⟨levelsEvery_wave cw, by simp [qSeq_eq], fun k hk => ?_, by simp [qSeq_eq], fun j hj hj' => ?_⟩
  · have hlevel : ∀ j, j < 4 →
        (qSeq cw)[4 * k + j]? = [true, cw.getLsbD (23 - k), cw.getLsbD (23 - k), false][j]? := fun j hj => by
      rw [qSeq_eq, List.getElem?_append_left (by simp; omega), symbolsLevels_getElem? cw hk hj]
    exact ⟨hlevel 0 (by omega), hlevel 1 (by omega), hlevel 2 (by omega), hlevel 3 (by omega)⟩
  · obtain ⟨i, rfl⟩ : ∃ i, j = 96 + (i + 1) := ⟨j - 97, by omega⟩
    have hpast : 96 + (i + 1) - 4 * 24 = i + 1 := by omega
    rw [qSeq_eq, List.getElem?_append_right (by simp), symbolsLevels_length, hpast, List.getElem?_cons_succ]
    exact List.getElem?_replicate_of_lt (by omega)

end Sys2Proof.Machine
end

section
/-! PROOFS. The statements of 40_pairing_store.md: what the load reads, and that a stored record loads back. -/

namespace Sys2Proof.Machine

/-- Two arrays that read alike at the three offsets from `off` hold the same record there (20_memory.md R64). -/
theorem readBytes_three_congr {m n : Memory} {off : Nat}
    (h : ∀ x, off ≤ x → x < off + 3 → Memory.read m x = Memory.read n x) :
    Memory.readBytes m off 3 = Memory.readBytes n off 3 := by
  rw [readBytes_three, readBytes_three, h off (by omega) (by omega), h (off + 1) (by omega) (by omega),
    h (off + 2) (by omega) (by omega)]

/-- Settles O35: the load is a function of copy 0, and a record written there reads back whole. -/
theorem loadReadsCopyZeroOnly : Obligations.LoadReadsCopyZeroOnly := by
  unfold Obligations.LoadReadsCopyZeroOnly
  refine ⟨fun m n h => ?_, erasedRecord_recordOf, fun m a hm => ?_⟩
  · exact loadedAddr_congr m n (readBytes_three_congr fun x _ hx => h x (by omega))
  · exact loadedAddr_record _ a (readBytes_writeBytes m 0 a hm)

end Sys2Proof.Machine
end

section
/-! PROOFS. The statements of 41_codeword_encoder.md: a codeword determines its address and its action. -/

namespace Sys2Proof.Machine

/-- Both arguments of the encoder are read back from the codeword's two fields (41_codeword_encoder.md R123). -/
theorem encodeCodeword_injective {a b : Addr} {x y : Action} (h : encodeCodeword a x = encodeCodeword b y) :
    a = b ∧ x = y := by
  obtain ⟨haddr, hnibble⟩ := codeword_fields a x
  obtain ⟨haddr', hnibble'⟩ := codeword_fields b y
  rw [h] at haddr hnibble
  exact ⟨haddr.symm.trans haddr', nibbleOf_injective x y (hnibble.symm.trans hnibble')⟩

/-- A codeword's low nibble is one of the ten of the table (30_encoding.md R89). -/
theorem cwNibble_encodeCodeword_mem (a : Addr) (x : Action) : cwNibble (encodeCodeword a x) ∈ commandNibbles :=
  (codeword_fields a x).2 ▸ nibbleOf_mem x

/-- Settles O9: the two fields determine address and action, and the ten nibbles leave out 0. -/
theorem encoderIsInjective : Obligations.EncoderIsInjective := by
  unfold Obligations.EncoderIsInjective
  exact ⟨fun _ _ _ _ => encodeCodeword_injective, fun a x =>
    ⟨cwNibble_encodeCodeword_mem a x, encodeCodeword_ne_zero a x⟩⟩

end Sys2Proof.Machine
end

section
/-! PROOFS. The statements of 42_rf_transmitter.md that run the state machine: the levels at every quantum of a frame, and
the frame sent in quanta against the atomic TICK. -/

namespace Sys2Proof.Machine

/-! ## The levels of a transmitter inside a frame -/

/-- A symbol is high for the quanta of its first hold and low for the rest (42_rf_transmitter.md R138). -/
theorem symbolLevels_getElem? (b : Bool) {j : Nat} (hj : j < 4) :
    (symbolLevels b)[j]? = some (decide (j < holdQuanta .bitHi b)) := by
  cases b <;> revert j <;> decide

/-- The j-th level of the k-th symbol of a frame (42_rf_transmitter.md R138). -/
theorem qSeq_symbol (cw : Codeword) {k j : Nat} (hk : k < 24) (hj : j < 4) :
    (qSeq cw)[4 * k + j]? = some (decide (j < holdQuanta .bitHi (cw.getLsbD (23 - k)))) := by
  rw [qSeq_eq, List.getElem?_append_left (by simp; omega), symbolsLevels_getElem? cw hk hj, ← symbolLevels_eq,
    symbolLevels_getElem? _ hj]

/-- While a symbol is sent, the position is that of a quantum of this symbol, and rf_out is high in its first hold only. -/
theorem FrameInv.position_symbol {t : State} (hf : FrameInv t) (htx : t.txs = .bitHi ∨ t.txs = .bitLo) :
    ∃ j, j < 4 ∧ position t = 4 * (24 - t.bitcnt) + j ∧ t.rfOut = decide (j < holdQuanta .bitHi t.cur) := by
  have hwhole : holdQuanta .bitHi t.cur + holdQuanta .bitLo t.cur = 4 := by cases t.cur <;> rfl
  obtain ⟨hq1, hq2⟩ := hf.hold
  rcases htx with htx | htx <;> rw [htx] at hq2
  · refine ⟨holdQuanta .bitHi t.cur - t.qcnt, by omega, by simp only [position, htx]; omega, ?_⟩
    rw [hf.level.mpr (.inl htx), decide_eq_true (by omega)]
  · refine ⟨holdQuanta .bitHi t.cur + (holdQuanta .bitLo t.cur - t.qcnt), by omega,
      by simp only [position, htx]; omega, ?_⟩
    rw [frameInv_low hf (.inl htx), decide_eq_false (by omega)]

/-- The critical window is the positions below 97 (42_rf_transmitter.md R142). -/
theorem FrameInv.crit_eq {t : State} (hf : FrameInv t) : t.crit = decide (position t < 97) := by
  have hwindow : t.txs ≠ .gap ↔ position t < 97 := by
    have hsymbol : t.txs = .bitHi ∨ t.txs = .bitLo → position t < 97 := fun htx => by
      obtain ⟨hlow, -⟩ := hf.bits htx
      obtain ⟨j, hj, hpos, -⟩ := hf.position_symbol htx
      omega
    cases htx : t.txs with
    | idle => exact absurd htx hf.running
    | bitHi => exact iff_of_true (by simp) (hsymbol (.inl htx))
    | bitLo => exact iff_of_true (by simp) (hsymbol (.inr htx))
    | sync => simp [position, htx]
    | gap => simp [position, htx]
  rw [Bool.eq_iff_iff, decide_eq_true_iff]
  exact hf.window.trans hwindow

/-- rf_out is the level of QSeq at the position (42_rf_transmitter.md R142). -/
theorem FrameInv.qSeq_position {t : State} (hf : FrameInv t) : (qSeq t.cw)[position t]? = some t.rfOut := by
  obtain ⟨-, -, -, hsync, hgap⟩ := quantaOfAFrame t.cw
  have hsymbol : t.txs = .bitHi ∨ t.txs = .bitLo → (qSeq t.cw)[position t]? = some t.rfOut := fun htx => by
    obtain ⟨hlow, hhigh, -, hcur⟩ := hf.bits htx
    obtain ⟨j, hj, hpos, hrf⟩ := hf.position_symbol htx
    have hbit : 23 - (24 - t.bitcnt) = t.bitcnt - 1 := by omega
    rw [hpos, qSeq_symbol t.cw (by omega) hj, hbit, ← hcur, hrf]
  cases htx : t.txs with
  | idle => exact absurd htx hf.running
  | bitHi => exact hsymbol (.inl htx)
  | bitLo => exact hsymbol (.inr htx)
  | sync =>
    rw [hf.level.mpr (.inr htx)]
    simpa only [position, htx] using hsync
  | gap =>
    obtain ⟨hq1, -⟩ := hf.hold
    rw [frameInv_low hf (.inr htx)]
    simpa only [position, htx] using hgap (97 + (150 - t.qcnt)) (by omega) (by omega)

/-! ## A frame in flight -/

/-- The ports after the tick and the cycles `es`: the offers of `es` wait in order, their strobes are dropped
(10_state.md R36 to R38). -/
def withOffers (s : State) (es rest : List EnvCycle) : State :=
  { s with wrQueue := reportsOf es, rdWaiting := readsOf es, env := rest }

/-- `t` is inside the frame that a tick in `s` started, one quantum further for each cycle of `es`. -/
structure MidFrame (s : State) (es rest : List EnvCycle) (t : State) : Prop where
  frame : FrameInv t
  busy : t.busy = true
  pos : position t = es.length
  events : t.trace ++ remaining t = s.trace ++ .wdtKick :: wave s.cw
  cw : t.cw = s.cw
  rep : t.rep = s.rep
  kept : QuantumFrame (withOffers s es rest) t

theorem QuantumFrame.trans {s t u : State} (h : QuantumFrame s t) (h' : QuantumFrame t u) : QuantumFrame s u where
  addr := h'.addr.trans h.addr
  mask := h'.mask.trans h.mask
  deb := h'.deb.trans h.deb
  booted := h'.booted.trans h.booted
  nv := h'.nv.trans h.nv
  wrQueue := h'.wrQueue.trans h.wrQueue
  rdWaiting := h'.rdWaiting.trans h.rdWaiting
  env := h'.env.trans h.env
  freeIdx := h'.freeIdx.trans h.freeIdx

/-- The frame does not speak of the ports. -/
theorem FrameInv.takeOffers {t : State} (c : EnvCycle) (hf : FrameInv t) : FrameInv (takeOffers c t) := by
  obtain ⟨hrun, hlevel, hwindow, hhold, hbits, hafter⟩ := hf
  exact ⟨hrun, hlevel, hwindow, hhold, hbits, hafter⟩

/-- The offers of one more cycle join those that wait. -/
theorem QuantumFrame.takeOffers {s t : State} {es rest : List EnvCycle} {c : EnvCycle}
    (h : QuantumFrame (withOffers s es (c :: rest)) t) :
    QuantumFrame (withOffers s (es ++ [c]) rest) (takeOffers c t) where
  addr := h.addr
  mask := h.mask
  deb := h.deb
  booted := h.booted
  nv := h.nv
  wrQueue := by
    show t.wrQueue ++ c.wr.toList = reportsOf (es ++ [c])
    rw [h.wrQueue]
    simp [reportsOf, withOffers]
  rdWaiting := by
    show t.rdWaiting + c.rd.toNat = readsOf (es ++ [c])
    rw [h.rdWaiting]
    simp [readsOf, withOffers]
  env := congrArg List.tail h.env
  freeIdx := h.freeIdx

/-- The tick of a block ready to send is FrameStart (44_scheduler.md R180). -/
theorem step_readyToSend {s : State} {rest : List EnvCycle} (hs : readyToSend s) (henv : s.env = tickCycle :: rest) :
    ∃ t, step s = .next t ∧ MidFrame s [] rest t := by
  obtain ⟨hboot, hbusy, hrep, hdeb, hwr, hrd⟩ := hs
  have hcycle : currentCycle s = tickCycle := by rw [currentCycle, henv]; rfl
  have hstep := step_no_offer ((ready_iff s).mpr ⟨hboot, hbusy⟩) (by rw [hcycle]; rfl)
    (by rw [offeredReports, hwr, hcycle]; rfl) (by rw [hrd, hcycle]; rfl)
  have hports : setEnv s.env.tail s = withOffers s [] rest := by
    rw [henv, withOffers, ← show s.wrQueue = reportsOf [] from hwr, ← show s.rdWaiting = readsOf [] from hrd]
    rfl
  rw [hcycle, hports, if_pos (show tickCycle.tick = true from rfl),
    tickStart_transmitting (s := withOffers s [] rest) hrep hdeb] at hstep
  obtain ⟨hf, hpos, htrace, hwave, hcw, hrep', hbusy', hkept⟩ := frameStart_frameInv (emit .wdtKick (withOffers s [] rest))
  refine ⟨_, hstep, hf, hbusy', hpos, ?_, hcw, hrep', ?_⟩
  · calc _ = (s.trace ++ [.wdtKick] ++ [.critOn]) ++ remaining _ := congrArg (· ++ remaining _) htrace
      _ = (s.trace ++ [.wdtKick]) ++ wave s.cw := (List.append_assoc ..).trans (congrArg _ hwave)
      _ = _ := List.append_assoc ..
  · exact .trans (by constructor <;> rfl) hkept

/-- A cycle of a block inside a frame is one quantum, and the offers of the cycle wait (10_state.md R36, R37). -/
theorem MidFrame.step_eq {s t : State} {es rest : List EnvCycle} {c : EnvCycle} (hm : MidFrame s es (c :: rest) t)
    (hboot : s.booted = true) (hrst : c.rst = none) :
    step t = .next (qStep (takeOffers c t)) ∧
    QuantumFrame (withOffers s (es ++ [c]) rest) (qStep (takeOffers c t)) := by
  have hcycle : currentCycle t = c := by rw [currentCycle, hm.kept.env]; rfl
  have hstep := step_busy (hm.kept.booted.trans hboot) hm.busy (by rw [hcycle]; exact hrst)
  rw [hcycle] at hstep
  exact ⟨hstep, hm.kept.takeOffers.trans (qStep_frame _)⟩

/-- Before its last quantum the frame goes on. -/
theorem MidFrame.step_goesOn {s t : State} {es rest : List EnvCycle} {c : EnvCycle} (hm : MidFrame s es (c :: rest) t)
    (hboot : s.booted = true) (hrst : c.rst = none) (hlen : es.length < 246) :
    ∃ u, step t = .next u ∧ MidFrame s (es ++ [c]) rest u := by
  obtain ⟨hstep, hkept⟩ := hm.step_eq hboot hrst
  rcases qStep_cases (takeOffers c t) (hm.frame.takeOffers c) hm.busy with
    ⟨fs, hf, hbusy, -, hpos, htrace, hremaining, hcw, hrep⟩ | ⟨hpos, -⟩
  · refine ⟨_, hstep, hf, hbusy, ?_, ?_, hcw.trans hm.cw, hrep.trans hm.rep, hkept⟩
    · rw [hpos, List.length_append, ← hm.pos]
      rfl
    · rw [htrace, List.append_assoc, ← hremaining]
      exact hm.events
  · exact absurd (hm.pos.symm.trans hpos) (by omega)

/-- After the last quantum the block is as the atomic TICK leaves it: levels low, all of the frame's events emitted, REP
one less (42_rf_transmitter.md R142, 44_scheduler.md R185). -/
theorem MidFrame.step_ends {s t : State} {es rest : List EnvCycle} {c : EnvCycle} (hm : MidFrame s es (c :: rest) t)
    (hboot : s.booted = true) (hrst : c.rst = none) (hlen : es.length = 246) :
    ∃ u, step t = .next u ∧ QuantumFrame (withOffers s (es ++ [c]) rest) u ∧ u.txs = .idle ∧ u.busy = false ∧
      u.rfOut = false ∧ u.crit = false ∧ u.trace = s.trace ++ .wdtKick :: wave s.cw ∧ u.rep = s.rep - 1 ∧
      u.cw = (if s.rep - 1 = 0 then 0 else s.cw) := by
  obtain ⟨hstep, hkept⟩ := hm.step_eq hboot hrst
  rcases qStep_cases (takeOffers c t) (hm.frame.takeOffers c) hm.busy with
    ⟨-, -, -, hpos, -⟩ | ⟨-, hbusy, hrf, hcrit, htxs, htrace, hremaining, hrep, hcw, -, -⟩
  · exact absurd (show position t < 246 from hpos) (by rw [hm.pos]; omega)
  · refine ⟨_, hstep, hkept, htxs, hbusy, hrf, hcrit, ?_, ?_, ?_⟩
    · rw [htrace, ← hremaining]
      exact hm.events
    · rw [hrep, ← hm.rep]
      rfl
    · rw [hcw, ← hm.rep, ← hm.cw]
      rfl

/-! ## Running a frame -/

theorem runFor_succ_of_step {k : Nat} {s t u : State} (h : runFor k s = .next t) (hstep : step t = .next u) :
    runFor (k + 1) s = .next u := by
  rw [runFor_add, h]
  simp only [runFor, hstep]

/-- The tick and up to 246 quanta end inside the frame, at the quantum counted (42_rf_transmitter.md R142). -/
theorem runFor_midFrame {s : State} {es rest : List EnvCycle} (hs : readyToSend s) (hlen : es.length < 247)
    (hes : noReset es) (henv : s.env = tickCycle :: (es ++ rest)) :
    ∃ t, runFor (es.length + 1) s = .next t ∧ MidFrame s es rest t := by
  have ⟨hboot, _⟩ := hs
  induction es using List.reverseRecOn generalizing rest with
  | nil =>
    obtain ⟨t, hstep, hm⟩ := step_readyToSend hs henv
    exact ⟨t, runFor_succ_of_step rfl hstep, hm⟩
  | append_singleton es c ih =>
    rw [List.length_append] at hlen ⊢
    obtain ⟨t, hrun, hm⟩ := ih (rest := c :: rest) (by omega) (fun d hd => hes d (List.mem_append_left _ hd))
      (by rw [henv]; simp)
    obtain ⟨u, hstep, hm'⟩ := hm.step_goesOn hboot (hes c (by simp)) (by simp at hlen; omega)
    exact ⟨u, runFor_succ_of_step hrun hstep, hm'⟩

/-- Settles O27: at every quantum the transmitter is inside the frame, at the position that counts the quanta. -/
theorem levelsDuringAFrame : Obligations.LevelsDuringAFrame := by
  unfold Obligations.LevelsDuringAFrame
  rintro s es rest _ hs hj rfl hes henv
  obtain ⟨t, hrun, hm⟩ := runFor_midFrame hs hj hes henv
  have hlevel := hm.frame.qSeq_position
  have hcrit := hm.frame.crit_eq
  rw [hm.cw, hm.pos] at hlevel
  rw [hm.pos] at hcrit
  exact ⟨t, hrun, hlevel, hcrit, hm.busy, hm.cw, hm.rep, hm.kept.deb, hm.kept.mask, hm.kept.addr, hm.kept.nv⟩

/-- What a quantum keeps, the job, the trace and the levels are all of the state but the transmitter's own registers. -/
theorem QuantumFrame.eq_of_outside_transmitter {s t : State} (h : QuantumFrame s t) (hcw : t.cw = s.cw)
    (hrep : t.rep = s.rep) (htrace : t.trace = s.trace) (hrf : t.rfOut = s.rfOut) (hcrit : t.crit = s.crit)
    (hbusy : t.busy = s.busy) :
    t = { s with txs := t.txs, shreg := t.shreg, cur := t.cur, bitcnt := t.bitcnt, qcnt := t.qcnt } := by
  obtain ⟨haddr, hmask, hdeb, hboot, hnv, hwr, hrd, henv, hfree⟩ := h
  cases s
  cases t
  simp_all

/-- Settles O26: 246 quanta inside the frame, then the one that ends it. -/
theorem frameRefinesAtomicTick : Obligations.FrameRefinesAtomicTick := by
  unfold Obligations.FrameRefinesAtomicTick
  intro s es rest hs hlen hes henv
  have ⟨hboot, hbusy, hrep, hdeb, _⟩ := hs
  obtain ⟨es, c, rfl⟩ := (List.eq_nil_or_concat' es).resolve_left (by rintro rfl; cases hlen)
  have hlen' : es.length = 246 := by simpa using hlen
  obtain ⟨t, hrun, hm⟩ := runFor_midFrame (rest := c :: rest) hs (by omega)
    (fun d hd => hes d (List.mem_append_left _ hd)) (by rw [henv]; simp)
  obtain ⟨v, hstep, hkept, htxs, hbusy', hrf, hcrit, htrace, hrep', hcw⟩ := hm.step_ends hboot (hes c (by simp)) hlen'
  have hrun' := runFor_succ_of_step hrun hstep
  rw [hlen'] at hrun'
  refine ⟨v, _, hrun', runOp_tick ((ready_iff s).mpr ⟨hboot, hbusy⟩), htxs, ?_⟩
  have hequal := QuantumFrame.eq_of_outside_transmitter (s := withOffers (tickWhole s) (es ++ [c]) rest) (t := v)
  rw [tickWhole_transmitting hrep hdeb] at hequal ⊢
  exact hequal (.trans (by constructor <;> rfl) hkept) hcw hrep' (htrace.trans (List.append_cons ..)) hrf hcrit hbusy'

end Sys2Proof.Machine
end

section
/-! PROOFS. The statements of 43_command_decoder.md: what each command does and leaves alone, that every WRITE is the
decoded command and an Ack, and the burst of frames one command produces. -/

namespace Sys2Proof.Machine

/-! ## The burst of one command -/

@[simp] theorem framesIn_symbols (cw : Codeword) (n : Nat) : framesIn (symbols cw n) = 0 := by
  induction n with
  | zero => rfl
  | succ n ih =>
    have hsymbol : ∀ b, framesIn (symbol b) = 0 := fun b => by cases b <;> rfl
    rw [symbols, framesIn_append, hsymbol, ih]

/-- The event list of a frame starts one frame (42_rf_transmitter.md R136). -/
@[simp] theorem framesIn_wave (cw : Codeword) : framesIn (wave cw) = 1 := by
  simp [wave_eq]

/-- The events of the j-th tick, counted from 0, after a command of codeword `cw` and debounce `d`
(44_scheduler.md R187). -/
def burstTick (cw : Codeword) (d j : Nat) : List Event :=
  if j < d then [.wdtKick] else if j < d + 10 then .wdtKick :: wave cw else [.wdtKick]

/-- The events of the first `k` ticks. -/
def burst (cw : Codeword) (d k : Nat) : List Event := (List.range k).flatMap (burstTick cw d)

theorem burst_succ (cw : Codeword) (d k : Nat) : burst cw d (k + 1) = burst cw d k ++ burstTick cw d k := by
  simp [burst, List.range_succ]

/-- The ticks of the debounce send no frame, the ten that follow send one each (44_scheduler.md R187). -/
theorem framesIn_burst (cw : Codeword) (d k : Nat) : framesIn (burst cw d k) = min (k - d) 10 := by
  induction k with
  | zero => simp [burst]
  | succ k ih =>
    rw [burst_succ, framesIn_append, ih, burstTick]
    split
    · rw [framesIn_wdtKick, framesIn_nil]
      omega
    · split
      · rw [framesIn_wdtKick, framesIn_wave]
        omega
      · rw [framesIn_wdtKick, framesIn_nil]
        omega

/-- `u` is where `k` ticks lead from `t`, the state a socket command left. -/
structure AfterTicks (t : State) (k : Nat) (u : State) : Prop where
  isReady : ready u = true
  trace : u.trace = t.trace ++ burst t.cw t.deb k
  rep : u.rep = 10 - min (k - t.deb) 10
  deb : u.deb = t.deb - k
  cw : u.cw = if k < t.deb + 10 then t.cw else 0
  mask : u.mask = t.mask
  addr : u.addr = t.addr

/-- The trace after one more tick. -/
theorem AfterTicks.trace_append {t u : State} {k : Nat} (h : AfterTicks t k u) :
    u.trace ++ burstTick t.cw t.deb k = t.trace ++ burst t.cw t.deb (k + 1) := by
  rw [h.trace, burst_succ, List.append_assoc]

/-- One tick more: the debounce goes on, a frame is sent, or all ten have been (44_scheduler.md R180, R187). -/
theorem AfterTicks.tick {t u : State} {k : Nat} (h : AfterTicks t k u) : AfterTicks t (k + 1) (tickWhole u) := by
  have hready := (tickWhole_ready_nv h.isReady).1
  have htrace := h.trace_append
  have hrep := h.rep
  have hdeb := h.deb
  have hcw := h.cw
  rcases Nat.lt_or_ge k t.deb with hwait | hwaited
  · rw [burstTick, if_pos hwait] at htrace
    rw [if_pos (by omega)] at hcw
    rw [tickWhole_debouncing (by omega) (by omega)] at hready ⊢
    exact ⟨hready, htrace, by rw [setJob_rep]; omega, by rw [setJob_deb]; omega, by rw [if_pos (by omega)]; exact hcw,
      h.mask, h.addr⟩
  · rw [burstTick, if_neg (Nat.not_lt.mpr hwaited)] at htrace
    rcases Nat.lt_or_ge k (t.deb + 10) with hsend | hsent
    · rw [if_pos hsend] at htrace hcw
      rw [tickWhole_transmitting (by omega) (by omega)] at hready ⊢
      refine ⟨hready, ?_, by rw [setJob_rep]; omega, by rw [setJob_deb]; omega, ?_, h.mask, h.addr⟩
      · rw [← htrace, ← hcw]
        exact List.append_assoc ..
      · have hlast : u.rep - 1 = 0 ↔ ¬ k + 1 < t.deb + 10 := by omega
        rw [setJob_cw, hcw]
        simp only [hlast, ite_not]
    · rw [if_neg (Nat.not_lt.mpr hsent)] at htrace hcw
      rw [tickWhole_idle (by omega)] at hready ⊢
      exact ⟨hready, htrace, by rw [emit_rep]; omega, by rw [emit_deb]; omega, by rw [if_neg (by omega)]; exact hcw,
        h.mask, h.addr⟩

/-- Ticks one after the other, from a ready state with a fresh job. -/
theorem afterTicks {t : State} (hr : ready t = true) (hrep : t.rep = 10) (k : Nat) :
    ∃ u, runOps (List.replicate k .tick) t = some u ∧ AfterTicks t k u := by
  induction k with
  | zero =>
    exact ⟨t, rfl, hr, by simp [burst], by rw [hrep]; omega, rfl, by rw [if_pos (by omega)], rfl, rfl⟩
  | succ k ih =>
    obtain ⟨u, hrun, hu⟩ := ih
    refine ⟨tickWhole u, ?_, hu.tick⟩
    rw [List.replicate_succ', runOps_append, hrun]
    simp only [Option.bind_some, runOps, runOp_tick hu.isReady]

/-- Settles O22, by induction on the ticks. -/
theorem burstOfOneCommand : Obligations.BurstOfOneCommand := by
  unfold Obligations.BurstOfOneCommand
  intro s t i k hr hsocket hexec
  obtain ⟨act, hact⟩ := (isSocketCommand_iff i).mp hsocket
  have hready : ready t = true := by
    obtain ⟨hboot, hbusy, -⟩ := exec_ports hexec
    rw [ready, hboot, hbusy]
    exact hr
  have hrep : t.rep = 10 := by
    rw [exec_socket hact] at hexec
    cases hexec
    rfl
  obtain ⟨u, hrun, hu⟩ := afterTicks hready hrep k
  have hframes : framesIn u.trace = framesIn t.trace + min (k - t.deb) 10 := by
    rw [hu.trace, framesIn_append, framesIn_burst]
  have hidle : t.deb + 10 ≤ k → sched u = .idle := fun hk => by
    rw [sched_eq_idle, hu.rep]
    omega
  exact ⟨u, hrun, hu.trace, hframes, hu.rep, hu.deb, hu.cw, hu.mask, hu.addr, hidle⟩

/-! ## The socket commands -/

/-- What a socket command does, for every action: MASK, the job on the address of the moment, and nothing else
(43_command_decoder.md R161 to R164, R167). -/
theorem exec_action {i : Instr} {act : Action} (h : i.action = some act) (s : State) :
    ∃ t, exec i s = .next t ∧ t.mask = maskAfter act s.mask ∧ submitted s t (nibbleOf act) (debounceOf act) ∧
      socketFrame s t := by
  obtain ⟨haddr, hnibble⟩ := codeword_fields s.addr act
  exact ⟨_, exec_socket h s, rfl, ⟨haddr, hnibble, rfl, rfl⟩, rfl, rfl, fun _ => rfl, rfl,
    ⟨rfl, rfl, rfl, rfl, rfl, rfl, rfl, rfl, rfl⟩, rfl, rfl, rfl, rfl⟩

/-- Settles O10: ALL_ON and ALL_OFF command every bit of MASK. -/
theorem allOnAllOffResult : Obligations.AllOnAllOffResult := by
  unfold Obligations.AllOnAllOffResult
  refine ⟨fun _ => decode_allOn, fun _ => decode_allOff, fun s => ⟨?_, ?_⟩⟩
  · obtain ⟨t, hexec, hmask, heffect⟩ := exec_action (i := .allOn) rfl s
    exact ⟨t, hexec, fun i hi => by rw [hmask, maskAfter_bit _ _ i hi]; rfl, heffect⟩
  · obtain ⟨t, hexec, hmask, heffect⟩ := exec_action (i := .allOff) rfl s
    exact ⟨t, hexec, fun i hi => by rw [hmask, maskAfter_bit _ _ i hi]; rfl, heffect⟩

/-- An action that commands one bit of MASK has the effect of ON or OFF on that socket (10_state.md R22). -/
theorem exec_socketEffect {i : Instr} {act : Action} (h : i.action = some act) {bit : Nat} {level : Bool}
    (hbit : ∀ j < 4, commandsBit j act = if j = bit then some level else none) (s : State) :
    ∃ t, exec i s = .next t ∧ socketEffect s t bit level (nibbleOf act) (debounceOf act) := by
  obtain ⟨t, hexec, hmask, heffect⟩ := exec_action h s
  refine ⟨t, hexec, fun j hj => ?_, heffect⟩
  rw [hmask, maskAfter_bit act s.mask j hj, hbit j hj]
  split <;> rfl

theorem exec_onInstr (k : Socket) (s : State) :
    ∃ t, exec (onInstr k) s = .next t ∧
      socketEffect s t (k.index - 1) true (nibbleOf (.on k)) Config.debounceOn :=
  exec_socketEffect (act := .on k) (by cases k <;> rfl) (by cases k <;> decide) s

theorem exec_offInstr (k : Socket) (s : State) :
    ∃ t, exec (offInstr k) s = .next t ∧
      socketEffect s t (k.index - 1) false (nibbleOf (.off k)) Config.debounceOff :=
  exec_socketEffect (act := .off k) (by cases k <;> rfl) (by cases k <;> decide) s

/-- A valid index after the opcode of ON selects that socket (30_encoding.md R85). -/
theorem decode_onInstr {r : Report} (k : Socket) (h0 : r.b0 = 0xFF) (h1 : r.b1 = BitVec.ofNat 8 k.index) :
    decode r = onInstr k := by
  rw [decode_on h0, (socketOfIndex_eq_some _ k).mpr h1]

theorem decode_offInstr {r : Report} (k : Socket) (h0 : r.b0 = 0xFD) (h1 : r.b1 = BitVec.ofNat 8 k.index) :
    decode r = offInstr k := by
  rw [decode_off h0, (socketOfIndex_eq_some _ k).mpr h1]

/-- A report that carries no command is IGNORED (30_encoding.md R83). -/
theorem NoCommand.decode_eq {r : Report} (h : NoCommand r) : decode r = .ignored := by
  obtain ⟨-, -, -, -, -, -, -, -, -, -, -, hignored⟩ := everyReportDecodesToOneCommand r
  exact hignored.mpr h

/-- Settles O11, socket by socket. -/
theorem onResult : Obligations.OnResult := by
  unfold Obligations.OnResult
  exact ⟨fun _ h0 => ⟨decode_onInstr .s1 h0, decode_onInstr .s2 h0, decode_onInstr .s3 h0, decode_onInstr .s4 h0,
      fun h1 => NoCommand.decode_eq (.inr (.inl ⟨.inl h0, h1⟩))⟩,
    fun s => ⟨exec_onInstr .s1 s, exec_onInstr .s2 s, exec_onInstr .s3 s, exec_onInstr .s4 s⟩⟩

/-- Settles O12, socket by socket. -/
theorem offResult : Obligations.OffResult := by
  unfold Obligations.OffResult
  exact ⟨fun _ h0 => ⟨decode_offInstr .s1 h0, decode_offInstr .s2 h0, decode_offInstr .s3 h0, decode_offInstr .s4 h0,
      fun h1 => NoCommand.decode_eq (.inr (.inl ⟨.inr h0, h1⟩))⟩,
    fun s => ⟨exec_offInstr .s1 s, exec_offInstr .s2 s, exec_offInstr .s3 s, exec_offInstr .s4 s⟩⟩

/-- A pending job is transmitting or debouncing according to its counter (10_state.md R26). -/
theorem sched_of_pending {s : State} (h : s.rep ≠ 0) :
    sched s = if s.deb = 0 then .transmitting else .debouncing := by
  rw [sched, if_neg h, ite_not]

/-- Settles O16: a socket command reads ADDR and MASK only, and overwrites the whole job. -/
theorem newJobReplacesTheOld : Obligations.NewJobReplacesTheOld := by
  unfold Obligations.NewJobReplacesTheOld
  intro i s cw rep deb hsocket
  obtain ⟨act, hact⟩ := (isSocketCommand_iff i).mp hsocket
  refine ⟨?_, _, exec_socket hact s, rfl, sched_of_pending (show Config.repeats ≠ 0 by decide)⟩
  rw [exec_socket hact, exec_socket hact]
  rfl

/-! ## SET_SERIAL -/

/-- The three bytes of a copy, lowest first (20_memory.md R61, R62). -/
theorem read_withCopies (a : Addr) {m : Memory} (h : Memory.wf m) {off : Nat} (hoff : off ∈ Config.nvOffsets) :
    Memory.read (withCopies a m) off = a.extractLsb' 0 8 ∧ Memory.read (withCopies a m) (off + 1) = a.extractLsb' 8 8 ∧
      (Memory.read (withCopies a m) (off + 2)).toNat = (a.extractLsb' 16 4).toNat := by
  have hrecord := readBytes_withCopies a m h off hoff
  simp only [readBytes_three, recordOf, List.cons.injEq, and_true] at hrecord
  obtain ⟨h0, h1, h2⟩ := hrecord
  exact ⟨h0, h1, by rw [h2, BitVec.toNat_setWidth_of_le (by decide)]⟩

/-- Writing ADDR and storage and emitting events leaves the rest of the state alone (10_state.md R28). -/
theorem setAddr_emitAll_setNv_frame (a : Addr) (es : List Event) (m : Memory) (s : State) :
    (setAddr a (emitAll es (setNv m s))).mask = s.mask ∧ sameJob s (setAddr a (emitAll es (setNv m s))) ∧
      sameLevels s (setAddr a (emitAll es (setNv m s))) ∧ samePorts s (setAddr a (emitAll es (setNv m s))) :=
  ⟨rfl, ⟨rfl, rfl, rfl⟩, ⟨rfl, rfl, rfl, rfl, rfl, rfl, rfl, rfl, rfl⟩, rfl, rfl, rfl, rfl⟩

/-- Settles O13, from what PairingSet does to storage. -/
theorem setSerialResult : Obligations.SetSerialResult := by
  unfold Obligations.SetSerialResult
  intro s a hnv
  rw [exec_setSerial, pairingSet_eq]
  refine ⟨_, rfl, rfl, ?_, ?_, ?_, rfl, setAddr_emitAll_setNv_frame ..⟩ <;> rw [setAddr_nv, emitAll_nv, setNv_nv]
  · exact fun _ hoff => read_withCopies a hnv hoff
  · exact read_withCopies_other a s.nv
  · exact withCopies_wf a s.nv hnv

/-! ## WRITE -/

/-- A report taken: the command in the state the ports leave, then Ack (43_command_decoder.md R160). -/
theorem step_takes_exec {s : State} {r : Report} {rest : List Report} (h : takes s r rest) :
    ∃ u, exec (decode r) (acceptedState s rest) = .next u ∧ step s = .next (emit .ack u) := by
  obtain ⟨u, hexec, hwrite⟩ := writeOp_next r (acceptedState s rest)
  exact ⟨u, hexec, (step_takes h).trans hwrite⟩

/-- Settles O14: a report without a command is IGNORED, and taking it adds the Ack alone. -/
theorem ignoredChangesNothing : Obligations.IgnoredChangesNothing := by
  unfold Obligations.IgnoredChangesNothing
  refine ⟨fun s => ⟨s, exec_ignored s, rfl⟩, fun _ => decode_unknown,
    fun _ h0 h1 => NoCommand.decode_eq (.inr (.inl ⟨h0, h1⟩)),
    fun _ h0 hp => NoCommand.decode_eq (.inr (.inr ⟨h0, hp⟩)), fun s r rest htakes hdec => ?_⟩
  obtain ⟨u, hexec, hstep⟩ := step_takes_exec htakes
  rw [hdec, exec_ignored] at hexec
  cases hexec
  exact hstep

/-- The events a command emits: none, or the three writes of a SET_SERIAL (20_memory.md R68). -/
theorem exec_events {i : Instr} {s t : State} (h : exec i s = .next t) :
    ∃ es, t.trace = s.trace ++ es ∧ durations es = [] ∧ framesIn es = 0 ∧
      (es = [] ∨ ∃ a, i = .setSerial a ∧
        es = [.nvWr 0x00 (recordOf a), .nvWr 0x40 (recordOf a), .nvWr 0x80 (recordOf a)]) := by
  obtain ⟨act, -, rfl⟩ | ⟨a, rfl, rfl⟩ | ⟨-, rfl⟩ := exec_cases h
  · exact ⟨[], (List.append_nil _).symm, rfl, rfl, .inl rfl⟩
  · exact ⟨_, rfl, rfl, rfl, .inr ⟨a, rfl, rfl⟩⟩
  · exact ⟨[], (List.append_nil _).symm, rfl, rfl, .inl rfl⟩

/-- Settles O19, from the events of the command. -/
theorem everyWriteEndsWithAck : Obligations.EveryWriteEndsWithAck := by
  unfold Obligations.EveryWriteEndsWithAck
  intro s r rest htakes
  obtain ⟨u, hexec, hstep⟩ := step_takes_exec htakes
  obtain ⟨es, htrace, hevents⟩ := exec_events hexec
  exact ⟨emit .ack u, u, es, hstep, hexec, rfl, by rw [emit_trace, htrace]; rfl, hevents⟩

/-! ## A placed report -/

theorem ready_makeReady (s : State) : ready (makeReady s) = true := by
  rw [ready_iff]
  refine ⟨?_, rfl⟩
  cases hboot : s.booted <;> simp [makeReady, hboot, boot_eq]

/-- A ready block takes the report placed on its port (log 3). -/
theorem takes_presentReport (r : Report) {s : State} (h : ready s = true) : takes (presentReport r s) r s.wrQueue := by
  obtain ⟨hboot, hbusy⟩ := (ready_iff s).mp h
  exact ⟨rfl, hboot, hbusy, List.append_nil _⟩

/-- The placed report runs in the state it was placed in (log 3). -/
theorem acceptedState_presentReport (r : Report) (s : State) : acceptedState (presentReport r s) s.wrQueue = s := rfl

/-- Settles O18: a placed report is one the block takes. -/
theorem stepRunsTheReportOnThePort : Obligations.StepRunsTheReportOnThePort := by
  unfold Obligations.StepRunsTheReportOnThePort
  refine ⟨fun s r rest htakes => ?_, fun s nbits w i hdec => ?_⟩
  · obtain ⟨u, hexec, hstep⟩ := step_takes_exec htakes
    rw [hstep, hexec]
    rfl
  · obtain rfl : decode (reportOfBits nbits w) = i := Option.some.inj hdec
    have htakes := takes_presentReport (reportOfBits nbits w) (ready_makeReady s)
    obtain ⟨u, hexec, hstep⟩ := step_takes_exec htakes
    obtain ⟨-, hboot, hbusy, -⟩ := htakes
    rw [acceptedState_presentReport] at hexec
    rw [State.withFetchWord, hstep, hexec]
    exact ⟨hboot, hbusy, rfl⟩

end Sys2Proof.Machine
end

section
/-! PROOFS. The statements of 45_read_report.md: what a READ shows of ADDR and MASK, and that a READ right after a WRITE
shows what the command left in them. -/

namespace Sys2Proof.Machine

/-! ## The read report -/

/-- HexChar makes digits and upper-case letters, which all lie below 'a' (30_encoding.md R87). -/
theorem hexChar_lt_lowerCase (v : Nibble) : (hexChar v).toNat < 0x61 := by
  revert v; decide

/-- The five characters of the report are ADDR (30_encoding.md R93). -/
theorem parseAddr_readReport (s : State) (x y : Byte) :
    parseAddr (readReport s).b0 (readReport s).b1 (readReport s).b2 (readReport s).b3 (readReport s).b4 x y =
      some s.addr :=
  parseAddr_hexChars s.addr x y

/-- No character of the report is a lower-case letter (92_eei_decisions.md D12). -/
theorem readReport_chars_lt_lowerCase (s : State) :
    ∀ c ∈ [(readReport s).b0, (readReport s).b1, (readReport s).b2, (readReport s).b3, (readReport s).b4],
      c.toNat < 0x61 := by
  simp [readReport, hexChar_lt_lowerCase]

/-- The low four bits of the last byte are MASK (92_eei_decisions.md D12). -/
theorem readReport_mask_bit (s : State) {i : Nat} (hi : i < 4) :
    (readReport s).b7.getLsbD i = s.mask.getLsbD i := by
  have h8 : i < 8 := by omega
  simp [readReport, h8]

/-- The high four bits of the last byte are 0 (92_eei_decisions.md D12). -/
theorem readReport_mask_lt (s : State) : (readReport s).b7.toNat < 16 := by
  rw [readReport, BitVec.toNat_setWidth_of_le (by decide)]
  exact s.mask.isLt

/-! ## READ at the ports -/

/-- A ready block with no report on its port serves one of the reads that wait (60_exceptions.md R216). -/
theorem step_read {s : State} (hr : ready s = true) (hrst : (currentCycle s).rst = none) (hoff : offeredReports s = [])
    (hrd : s.rdWaiting + (currentCycle s).rd.toNat ≠ 0) :
    step s = .next (readOp (setEnv s.env.tail
      (setHost s.wrQueue (s.rdWaiting + (currentCycle s).rd.toNat - 1) s))) := by
  obtain ⟨hboot, hbusy⟩ := (ready_iff s).mp hr
  obtain ⟨hq, -⟩ := List.append_eq_nil_iff.mp hoff
  rw [step_accept hboot hbusy hrst, acceptCycle_read _ _ _ hoff (Nat.succ_pred_eq_of_ne_zero hrd).symm, hq]
  rfl

/-- Settles O29: the step is a READ, which emits the report and serves one request. -/
theorem readReportsAddressAndMask : Obligations.ReadReportsAddressAndMask := by
  unfold Obligations.ReadReportsAddressAndMask
  intro s hboot hbusy hrst hoff hrd
  exact ⟨readReport s, step_read ((ready_iff s).mpr ⟨hboot, hbusy⟩) hrst hoff hrd, parseAddr_readReport s 0 0,
    readReport_chars_lt_lowerCase s, rfl, rfl, fun _ hi => readReport_mask_bit s hi, readReport_mask_lt s⟩

/-! ## READ after WRITE -/

theorem runOp_read {s t : State} (h : runOp .read s = some t) : t = readOp s := by
  obtain ⟨-, hread⟩ := Option.ite_none_right_eq_some.mp h
  exact (Option.some.inj hread).symm

/-- SET_SERIAL leaves its address in ADDR (43_command_decoder.md R165). -/
theorem exec_setSerial_addr {a : Addr} {s t : State} (h : exec (.setSerial a) s = .next t) : t.addr = a := by
  rw [exec_setSerial, pairingSet_eq] at h
  cases h
  rfl

/-- Only SET_SERIAL writes ADDR (10_state.md R21). -/
theorem exec_addr {i : Instr} {s t : State} (h : exec i s = .next t) (hi : ∀ a, i ≠ .setSerial a) :
    t.addr = s.addr := by
  obtain ⟨act, -, rfl⟩ | ⟨a, rfl, -⟩ | ⟨-, rfl⟩ := exec_cases h
  · rfl
  · exact absurd rfl (hi a)
  · rfl

/-- Settles O30: the report shows the ADDR and the MASK the command left, and Ack changes neither. -/
theorem readAfterWriteSeesIt : Obligations.ReadAfterWriteSeesIt := by
  unfold Obligations.ReadAfterWriteSeesIt
  intro s t u r hr hwrite hread
  obtain ⟨v, hexec, hrun⟩ := runOp_write r hr
  obtain rfl : emit .ack v = t := Option.some.inj (hrun.symm.trans hwrite)
  obtain rfl := runOp_read hread
  have haddr := parseAddr_readReport (emit .ack v) 0 0
  have hmask {i : Nat} (hi : i < 4) :
      (readReport (emit .ack v)).b7.getLsbD i =
        ((decode r).action.bind (commandsBit i)).getD (s.mask.getLsbD i) :=
    (readReport_mask_bit _ hi).trans (exec_mask_bit hexec hi)
  refine ⟨readReport (emit .ack v), rfl, fun a hdec => ?_, fun hdec => ?_, fun act i hact hi => ?_,
    fun hact i hi => ?_⟩
  · rw [haddr, emit_addr, exec_setSerial_addr (hdec ▸ hexec)]
  · rw [haddr, emit_addr, exec_addr hexec hdec]
  · rw [hmask hi, hact, Option.bind_some]
  · rw [hmask hi, hact, Option.bind_none, Option.getD_none]

end Sys2Proof.Machine
end

section
/-! PROOFS. The statement of 60_exceptions.md: there is no exception model, so nothing that starts ends without a next
state. -/

namespace Sys2Proof.Machine

/-- Every cycle of the ports, whichever of the seven kinds it is, has a next state (60_exceptions.md R210). -/
theorem step_total (s : State) : ∃ t, step s = .next t := by
  rcases step_cases s with ⟨_, -, h⟩ | ⟨-, -, h⟩ | ⟨-, -, -, h⟩ | ⟨_, _, _, -, -, h⟩ | ⟨-, -, -, -, -, h⟩ |
    ⟨-, -, -, -, -, -, h⟩ | ⟨-, -, -, -, -, -, h⟩ <;> exact ⟨_, h⟩

/-- Every command, of the three kinds there are, has a next state in every state (60_exceptions.md R210). -/
theorem exec_total (i : Instr) (s : State) : ∃ t, exec i s = .next t := by
  rcases instr_cases i with ⟨_, hact⟩ | ⟨a, rfl⟩ | rfl
  · exact ⟨_, exec_socket hact s⟩
  · exact ⟨_, exec_setSerial a s⟩
  · exact ⟨_, exec_ignored s⟩

/-- Every operation of a ready block completes, whether or not its state is legal (60_exceptions.md R210). -/
theorem runOp_total (o : Op) {s : State} (hr : ready s = true) : ∃ t, runOp o s = some t := by
  cases o with
  | reset => exact ⟨resetOp s, rfl⟩
  | write r =>
    obtain ⟨u, -, hrun⟩ := runOp_write r hr
    exact ⟨emit .ack u, hrun⟩
  | read => exact ⟨readOp s, if_pos hr⟩
  | tick => exact ⟨tickWhole s, runOp_tick hr⟩

/-- Settles O42: the step, the command and the operation are total, and a report taken and IGNORED adds its Ack alone
(O14). -/
theorem everyStepAnswersNext : Obligations.EveryStepAnswersNext := by
  unfold Obligations.EveryStepAnswersNext
  obtain ⟨-, -, -, -, hignored⟩ := ignoredChangesNothing
  exact ⟨step_total, exec_total, fun o _ hr => runOp_total o hr, hignored⟩

end Sys2Proof.Machine
end

section
/-! PROOFS. The statements of 70_reset_and_hazards.md: what a reset cycle and the boot load after it leave, and how far a
SET_SERIAL cut by a reset had come. -/

namespace Sys2Proof.Machine

/-! ## The boot load -/

theorem currentCycle_of_env {s : State} {c : EnvCycle} {env : List EnvCycle} (h : s.env = c :: env) :
    currentCycle s = c := by
  rw [currentCycle, h]
  rfl

/-- A cycle without a report and without a read only uses up the cycle. -/
theorem takeOffers_of_no_offer {c : EnvCycle} (hwr : c.wr = none) (hrd : c.rd = false) (s : State) :
    takeOffers c s = setEnv s.env.tail s := by
  rw [takeOffers, hwr, hrd, Option.toList_none, List.append_nil]
  rfl

/-- In a quiet cycle the boot load is the whole step (70_reset_and_hazards.md R242). -/
theorem step_boot_quiet {s : State} {rest : List EnvCycle} (hboot : s.booted = false)
    (henv : s.env = EnvCycle.quiet :: rest) : step s = .next (setEnv rest (boot s)) := by
  have hcycle := currentCycle_of_env henv
  rw [step_boot hboot (by rw [hcycle]; rfl), hcycle, takeOffers_of_no_offer rfl rfl, henv]
  rfl

/-- A record is erased when each of its three bytes is (20_memory.md R63). -/
theorem erasedRecord_readBytes_three (m : Memory) (off : Nat) :
    erasedRecord (Memory.readBytes m off 3) = true ↔
      Memory.read m off = 0xFF ∧ Memory.read m (off + 1) = 0xFF ∧ Memory.read m (off + 2) = 0xFF := by
  simp [readBytes_three, erasedRecord, Config.erasedByte]

/-- An erased copy 0 loads as DEFAULT_ADDR (40_pairing_store.md R110). -/
theorem loadedAddr_of_erased {m : Memory}
    (h : Memory.read m 0 = 0xFF ∧ Memory.read m 1 = 0xFF ∧ Memory.read m 2 = 0xFF) :
    loadedAddr m = Config.defaultAddr :=
  if_pos ((erasedRecord_readBytes_three m 0).mpr h)

/-- Any other copy 0 loads as its low 20 bits, lowest byte first (40_pairing_store.md R110). -/
theorem loadedAddr_toNat_of_not_erased {m : Memory}
    (h : ¬ (Memory.read m 0 = 0xFF ∧ Memory.read m 1 = 0xFF ∧ Memory.read m 2 = 0xFF)) :
    (loadedAddr m).toNat =
      (Memory.read m 0).toNat + 256 * (Memory.read m 1).toNat + 65536 * ((Memory.read m 2).toNat % 16) := by
  have hrecord : loadedAddr m = recordAddr (Memory.read m 0) (Memory.read m 1) (Memory.read m 2) :=
    if_neg (mt (erasedRecord_readBytes_three m 0).mp h)
  rw [hrecord, recordAddr_toNat]

/-- Settles O33: the step is the boot load, and what it loads depends on whether copy 0 is erased. -/
theorem unbootedBlockOnlyBoots : Obligations.UnbootedBlockOnlyBoots := by
  unfold Obligations.UnbootedBlockOnlyBoots
  intro s hboot hrst
  refine ⟨loadedAddr s.nv, ?_, fun h0 h1 h2 => loadedAddr_of_erased ⟨h0, h1, h2⟩, loadedAddr_toNat_of_not_erased⟩
  rw [step_boot hboot hrst, boot_eq]
  rfl

/-! ## The reset cycle -/

theorem cutWrite_of_no_cut {p : ResetPoint} (h : p.cut = none) (s : State) : cutWrite p s = s := by
  rcases cutWrite_cases p s with hcut | ⟨c, -, -, -, hc, -⟩
  · exact hcut
  · rw [h] at hc
    cases hc

theorem resetCycle_nv_of_no_cut {p : ResetPoint} (h : p.cut = none) (s : State) : (resetCycle p s).nv = s.nv := by
  obtain ⟨hnv, -⟩ := enterReset_outside (p.us.val + 1) (cutWrite p s)
  rw [resetCycle, hnv, cutWrite_of_no_cut h]

/-- `Reset` is the last event of its cycle; what the reset cut, a SET_SERIAL or a hold, stands before it
(70_reset_and_hazards.md R241). -/
theorem resetCycle_trace (p : ResetPoint) (s : State) : ∃ es, (resetCycle p s).trace = s.trace ++ es ++ [.reset] := by
  obtain ⟨⟨es, hcut, -, -⟩, -⟩ := cutWrite_startsNoFrame p s
  obtain ⟨-, -, -, -, htrace⟩ := enterReset_outside (p.us.val + 1) (cutWrite p s)
  rw [hcut, List.append_assoc s.trace] at htrace
  exact ⟨_, htrace⟩

/-- Settles O32: the step is a reset cycle, which leaves the reset values whatever it cut. -/
theorem resetValues : Obligations.ResetValues := by
  unfold Obligations.ResetValues
  intro s p hp
  obtain ⟨hmask, hcw, hrep, hdeb, hboot, hbusy, hcrit, hrf, htxs, -, -⟩ : AtResetValues (resetCycle p _) :=
    enterReset_registers (p.us.val + 1) (cutWrite p (takeOffers (currentCycle s) s))
  obtain ⟨es, htrace⟩ := resetCycle_trace p (takeOffers (currentCycle s) s)
  exact ⟨_, es, step_reset hp, hmask, hcw, hrep, hdeb, hboot, hbusy, hcrit, hrf, htxs, (sched_eq_idle _).mpr hrep, rfl,
    rfl, htrace, fun hcut => resetCycle_nv_of_no_cut hcut _⟩

/-- Between frames there is no hold to cut, so the instant of the reset in its cycle makes no difference
(42_rf_transmitter.md R143). -/
theorem enterReset_between_frames (us : Nat) {s : State} (hbusy : s.busy = false) :
    enterReset us s = emit .reset (resetRegisters s) := by
  rw [enterReset, recordCutHold, if_neg (by simp [hbusy])]

/-- Between frames a reset cycle with no offers and no cut is the RESET at the quantum boundary. -/
theorem step_reset_between_frames {s : State} {us : Fin 200} {rest : List EnvCycle} (hbusy : s.busy = false)
    (henv : s.env = resetCycleAt us :: rest) : step s = .next (setEnv rest (enterReset 0 s)) := by
  have hcycle := currentCycle_of_env henv
  rw [step_reset (by rw [hcycle]; rfl), hcycle, takeOffers_of_no_offer rfl rfl, resetCycle, cutWrite_of_no_cut rfl,
    enterReset_between_frames _ (s := setEnv s.env.tail s) hbusy, enterReset_between_frames 0 hbusy, henv]
  rfl

/-- Settles O34: the reset cycle, then the boot load, are the two halves of the atomic RESET. -/
theorem resetThenBootIsTheResetOperation : Obligations.ResetThenBootIsTheResetOperation := by
  unfold Obligations.ResetThenBootIsTheResetOperation
  intro s us rest hbusy henv
  have hreset := step_reset_between_frames hbusy henv
  have hboot := step_boot_quiet (s := setEnv (EnvCycle.quiet :: rest) (enterReset 0 s)) rfl rfl
  obtain ⟨hnv, haddr⟩ := resetOp_storage s
  obtain ⟨-, -, -, -, htrace⟩ := enterReset_outside 0 s
  refine ⟨setEnv rest (resetOp s), resetOp s, runFor_succ_of_step (runFor_succ_of_step rfl hreset) hboot, rfl, rfl, haddr,
    rfl, rfl, rfl, rfl, rfl, rfl, rfl, rfl, hnv, ?_⟩
  rw [hbusy] at htrace
  rw [setEnv_trace, resetOp, boot_eq, htrace]
  simp

/-! ## A SET_SERIAL cut by a reset -/

theorem nvOffsets_eq : Config.nvOffsets = (List.range 3).map (0x40 * ·) := rfl

/-- The copies lie at the multiples of 0x40 (20_memory.md R62). -/
theorem nvOffsets_getElem?_eq_some {n off : Nat} : Config.nvOffsets[n]? = some off ↔ n < 3 ∧ off = 0x40 * n := by
  by_cases h : n < 3 <;> simp [nvOffsets_eq, h, eq_comm]

theorem mem_take_nvOffsets {n off : Nat} : off ∈ Config.nvOffsets.take n ↔ ∃ k, k < n ∧ k < 3 ∧ off = 0x40 * k := by
  simp [nvOffsets_eq, ← List.map_take, List.take_range, eq_comm, and_assoc]

/-- The copies are clear of one another and written in rising order (20_memory.md R62, R68). -/
theorem nvOffsets_rising : Config.nvOffsets.Pairwise (fun x y => x + 3 ≤ y) := by decide

/-- Storage once the first `n` copies are written (20_memory.md R68). -/
def withFirstCopies (n : Nat) (a : Addr) (m : Memory) : Memory :=
  (Config.nvOffsets.take n).foldl (fun m off => Memory.writeBytes m off (recordOf a)) m

/-- A torn write leaves three free bytes in its copy (93_implementation_defined.md U22). -/
theorem memWriteTorn_nv (off : Nat) (record : List Byte) (s : State) :
    ∃ bs : List Byte, bs.length = 3 ∧ (memWriteTorn off record s).nv = Memory.writeBytes s.nv off bs :=
  ⟨[_, _, _], rfl, rfl⟩

/-- What a cut SET_SERIAL leaves in storage: the complete copies, and three free bytes in the copy the cut tore
(70_reset_and_hazards.md R251, 93_implementation_defined.md U22). -/
theorem pairingSetCut_nv_cases (a : Addr) (c : Cut) (s : State) :
    (pairingSetCut a c s).nv = withFirstCopies c.copies a s.nv ∨
    (c.torn = true ∧ ∃ bs : List Byte, bs.length = 3 ∧
      (pairingSetCut a c s).nv = Memory.writeBytes (withFirstCopies c.copies a s.nv) (0x40 * c.copies) bs) := by
  have hdone : (writeCopies (Config.nvOffsets.take c.copies) (recordOf a) s).nv = withFirstCopies c.copies a s.nv := by
    rw [writeCopies_eq]
    rfl
  simp only [pairingSetCut]
  split
  · next htorn =>
    split
    · exact .inl hdone
    · next off _ hdrop =>
      have hget : Config.nvOffsets[c.copies.val]? = some off := by rw [← List.head?_drop, hdrop]; rfl
      obtain ⟨-, rfl⟩ := nvOffsets_getElem?_eq_some.mp hget
      obtain ⟨bs, hbs, hnv⟩ := memWriteTorn_nv (0x40 * c.copies) (recordOf a)
        (writeCopies (Config.nvOffsets.take c.copies) (recordOf a) s)
      exact .inr ⟨htorn, bs, hbs, hdone ▸ hnv⟩
  · exact .inl hdone

/-- A cut SET_SERIAL leaves the write port and the coming cycles alone. -/
theorem pairingSetCut_ports (a : Addr) (c : Cut) (s : State) :
    (pairingSetCut a c s).wrQueue = s.wrQueue ∧ (pairingSetCut a c s).env = s.env := by
  have hdone : (writeCopies (Config.nvOffsets.take c.copies) (recordOf a) s).wrQueue = s.wrQueue ∧
      (writeCopies (Config.nvOffsets.take c.copies) (recordOf a) s).env = s.env := by
    rw [writeCopies_eq]
    exact ⟨rfl, rfl⟩
  simp only [pairingSetCut]
  split
  · split <;> exact hdone
  · exact hdone

/-- Three bytes clear of every copy written read as before (20_memory.md R64). -/
theorem readBytes_copies_other {offs : List Nat} {bs : List Byte} (m : Memory) {x : Nat} (hbs : bs.length = 3)
    (h : ∀ off ∈ offs, x + 3 ≤ off ∨ off + 3 ≤ x) :
    Memory.readBytes (offs.foldl (fun m off => Memory.writeBytes m off bs) m) x 3 = Memory.readBytes m x 3 := by
  refine readBytes_three_congr fun y hxy hyx => read_copies_other _ _ _ _ hbs fun off hoff hin => ?_
  obtain ⟨hlo, hhi⟩ := hin
  rw [Config.nvLen] at hhi
  have := h off hoff
  omega

/-- Of copies written in rising order, clear of one another, each reads back (20_memory.md R62, R68). -/
theorem readBytes_copies_mem {offs : List Nat} (a : Addr) {m : Memory} {off : Nat} (hm : Memory.wf m)
    (hrising : offs.Pairwise (fun x y => x + 3 ≤ y)) (hoff : off ∈ offs) :
    Memory.readBytes (offs.foldl (fun m off => Memory.writeBytes m off (recordOf a)) m) off 3 = recordOf a := by
  induction offs generalizing m with
  | nil => cases hoff
  | cons o offs ih =>
    obtain ⟨hfirst, hrest⟩ := List.pairwise_cons.mp hrising
    rw [List.foldl_cons]
    rcases List.mem_cons.mp hoff with rfl | hoff
    · rw [readBytes_copies_other _ (recordOf_length a) fun o ho => .inl (hfirst o ho), readBytes_writeBytes m off a hm]
    · exact ih (writeBytes_wf m o _ hm) hrest hoff

/-- The first `n` copies hold the new record. -/
theorem readBytes_withFirstCopies_written (a : Addr) {m : Memory} {n k : Nat} (hm : Memory.wf m) (hk : k < 3)
    (hkn : k < n) : Memory.readBytes (withFirstCopies n a m) (0x40 * k) 3 = recordOf a :=
  readBytes_copies_mem a hm (nvOffsets_rising.sublist (List.take_sublist ..)) (mem_take_nvOffsets.mpr ⟨k, hkn, hk, rfl⟩)

/-- The copies after the first `n` hold their old bytes. -/
theorem readBytes_withFirstCopies_other (a : Addr) (m : Memory) {n k : Nat} (hnk : n ≤ k) :
    Memory.readBytes (withFirstCopies n a m) (0x40 * k) 3 = Memory.readBytes m (0x40 * k) 3 := by
  refine readBytes_copies_other m (recordOf_length a) fun off hoff => ?_
  obtain ⟨j, hj, -, rfl⟩ := mem_take_nvOffsets.mp hoff
  omega

/-- A copy complete when the reset fell holds the new record, whether or not the next one is torn. -/
theorem readBytes_pairingSetCut_complete (a : Addr) {c : Cut} {s : State} {k : Nat} (hs : Memory.wf s.nv) (hk : k < 3)
    (hkc : k < c.copies.val) : Memory.readBytes (pairingSetCut a c s).nv (0x40 * k) 3 = recordOf a := by
  rcases pairingSetCut_nv_cases a c s with h | ⟨-, bs, -, h⟩ <;> rw [h]
  · exact readBytes_withFirstCopies_written a hs hk hkc
  · rw [readBytes_writeBytes_other _ _ _ _ (.inl (by omega)), readBytes_withFirstCopies_written a hs hk hkc]

/-- A copy not begun when the reset fell holds its old bytes. -/
theorem readBytes_pairingSetCut_notBegun (a : Addr) {c : Cut} (s : State) {k : Nat} (hck : c.copies.val ≤ k)
    (htorn : c.torn = true → c.copies.val < k) :
    Memory.readBytes (pairingSetCut a c s).nv (0x40 * k) 3 = Memory.readBytes s.nv (0x40 * k) 3 := by
  rcases pairingSetCut_nv_cases a c s with h | ⟨ht, bs, hbs, h⟩ <;> rw [h]
  · exact readBytes_withFirstCopies_other a s.nv hck
  · have := htorn ht
    rw [readBytes_writeBytes_other _ _ _ _ (.inr (by omega)), readBytes_withFirstCopies_other a s.nv hck]

/-- A reset before the first copy was begun leaves storage as it was. -/
theorem pairingSetCut_nv_of_none_begun (a : Addr) {c : Cut} (s : State) (hcopies : c.copies.val = 0)
    (htorn : c.torn = false) : (pairingSetCut a c s).nv = s.nv := by
  rcases pairingSetCut_nv_cases a c s with h | ⟨ht, -⟩
  · rw [h, hcopies]
    rfl
  · rw [htorn] at ht
    cases ht

/-- The reset cycle of a ready block whose first report is a SET_SERIAL: the cut write, then RESET (log 11). -/
theorem step_reset_cut {s : State} {p : ResetPoint} {c : Cut} {r : Report} {rest : List Report} {a : Addr}
    (hr : ready s = true) (hp : (currentCycle s).rst = some p) (hcut : p.cut = some c)
    (hoff : offeredReports s = r :: rest) (hdec : decode r = .setSerial a) :
    step s = .next (enterReset (p.us.val + 1) (pairingSetCut a c (acceptedState s rest))) := by
  have hq : (takeOffers (currentCycle s) s).wrQueue = r :: rest := hoff
  have hr' : ready (takeOffers (currentCycle s) s) = true := hr
  have hwrite : cutWrite p (takeOffers (currentCycle s) s) = pairingSetCut a c (acceptedState s rest) := by
    simp only [cutWrite, hcut, hq, hr', hdec, if_true]
    rfl
  rw [step_reset hp, resetCycle, hwrite]

/-- Settles O37: the reset leaves storage as the cut write left it, and the boot load after it reads copy 0, which is new
as soon as one copy is complete. -/
theorem resetDuringSetSerial : Obligations.ResetDuringSetSerial := by
  unfold Obligations.ResetDuringSetSerial
  intro s r rest a us c w rd tick later hwf hr henv hoff hdec
  have hp : (currentCycle s).rst = some ⟨us, some c⟩ := by rw [currentCycle_of_env henv]
  have hstep := step_reset_cut hr hp rfl hoff hdec
  obtain ⟨hnv, hqueue, -, hrest, -⟩ :=
    enterReset_outside (us.val + 1) (pairingSetCut a c (acceptedState s rest))
  obtain ⟨hqueue', hrest'⟩ := pairingSetCut_ports a c (acceptedState s rest)
  have hquiet : (acceptedState s rest).env = EnvCycle.quiet :: later := congrArg List.tail henv
  have hboot := step_boot_quiet (s := enterReset (us.val + 1) (pairingSetCut a c (acceptedState s rest))) rfl
    (hrest.trans (hrest'.trans hquiet))
  refine ⟨_, _, hstep, hboot, hqueue.trans hqueue', ?_⟩
  rw [setEnv_addr, boot_eq, hnv]
  refine ⟨pairingSetCut_wf a c hwf, fun hone => ?_, fun hnone htorn => ?_,
    fun k hk hkc => readBytes_pairingSetCut_complete a hwf hk hkc,
    fun k _ hck htorn => readBytes_pairingSetCut_notBegun a _ hck htorn,
    pairingSetCut_sameOutsideCopies a c _⟩
  · exact loadedAddr_record _ a (readBytes_pairingSetCut_complete a (k := 0) hwf (by omega) hone)
  · have hkept := pairingSetCut_nv_of_none_begun a (acceptedState s rest) hnone htorn
    exact ⟨congrArg loadedAddr hkept, hkept⟩

end Sys2Proof.Machine
end

section
/-! PROOFS. The statements of 30_encoding.md on samples and on the address payload: which reports written out decode to which
command, and when five characters make an address. -/

namespace Sys2Proof.Machine

/-! ## Sample reports -/

/-- Settles O1, by running the decoder on each report. -/
theorem sampleReportsDecode : Obligations.SampleReportsDecode := by
  unfold Obligations.SampleReportsDecode
  decide

/-! ## The address payload -/

/-- HexVal by character code (30_encoding.md R87). -/
theorem hexVal_toNat (c : Byte) :
    (hexVal c).map BitVec.toNat =
      if 0x30 ≤ c.toNat ∧ c.toNat ≤ 0x39 then some (c.toNat - 0x30)
      else if 0x41 ≤ c.toNat ∧ c.toNat ≤ 0x46 then some (c.toNat - 0x41 + 10)
      else if 0x61 ≤ c.toNat ∧ c.toNat ≤ 0x66 then some (c.toNat - 0x61 + 10)
      else none := by
  revert c; decide

/-- HexChar by character code (30_encoding.md R87). -/
theorem hexChar_toNat (v : Nibble) :
    (hexChar v).toNat = if v.toNat < 10 then 0x30 + v.toNat else 0x41 + v.toNat - 10 := by
  revert v; decide

/-- A payload parses to an address exactly when each character is the digit of its nibble (30_encoding.md R86). -/
theorem parseAddr_eq_some_iff_nibbles (p0 p1 p2 p3 p4 p5 p6 : Byte) (a : Addr) :
    parseAddr p0 p1 p2 p3 p4 p5 p6 = some a ↔
      hexVal p0 = some (addrNibble a 4) ∧ hexVal p1 = some (addrNibble a 3) ∧ hexVal p2 = some (addrNibble a 2) ∧
        hexVal p3 = some (addrNibble a 1) ∧ hexVal p4 = some (addrNibble a 0) := by
  rw [parseAddr_eq_some]
  constructor
  · rintro ⟨n0, n1, n2, n3, n4, h0, h1, h2, h3, h4, rfl⟩
    obtain ⟨e0, e1, e2, e3, e4⟩ := addrNibble_addrOfNibbles n0 n1 n2 n3 n4
    rw [e0, e1, e2, e3, e4]
    exact ⟨h0, h1, h2, h3, h4⟩
  · rintro ⟨h0, h1, h2, h3, h4⟩
    exact ⟨_, _, _, _, _, h0, h1, h2, h3, h4, addrOfNibbles_addrNibble a⟩

/-- A payload does not parse exactly when one of its five characters is no digit (30_encoding.md R86). -/
theorem parseAddr_eq_none (p0 p1 p2 p3 p4 p5 p6 : Byte) :
    parseAddr p0 p1 p2 p3 p4 p5 p6 = none ↔
      hexVal p0 = none ∨ hexVal p1 = none ∨ hexVal p2 = none ∨ hexVal p3 = none ∨ hexVal p4 = none := by
  have hsome : (∃ a, parseAddr p0 p1 p2 p3 p4 p5 p6 = some a) ↔
      (∃ n, hexVal p0 = some n) ∧ (∃ n, hexVal p1 = some n) ∧ (∃ n, hexVal p2 = some n) ∧ (∃ n, hexVal p3 = some n) ∧
        (∃ n, hexVal p4 = some n) := by
    simp only [parseAddr_eq_some]
    constructor
    · rintro ⟨_, n0, n1, n2, n3, n4, h0, h1, h2, h3, h4, -⟩
      exact ⟨⟨n0, h0⟩, ⟨n1, h1⟩, ⟨n2, h2⟩, ⟨n3, h3⟩, n4, h4⟩
    · rintro ⟨⟨n0, h0⟩, ⟨n1, h1⟩, ⟨n2, h2⟩, ⟨n3, h3⟩, n4, h4⟩
      exact ⟨_, n0, n1, n2, n3, n4, h0, h1, h2, h3, h4, rfl⟩
  rw [← not_iff_not]
  simpa only [← Option.ne_none_iff_exists', ne_eq, not_or] using hsome

/-- Settles O6, character by character. -/
theorem addressPayloadParses : Obligations.AddressPayloadParses := by
  unfold Obligations.AddressPayloadParses
  exact ⟨hexVal_toNat, fun v => ⟨hexChar_toNat v, hexVal_hexChar v⟩, fun p0 p1 p2 p3 p4 p5 p6 =>
    ⟨parseAddr_eq_some_iff_nibbles p0 p1 p2 p3 p4 p5 p6, parseAddr_eq_none p0 p1 p2 p3 p4 p5 p6⟩⟩

end Sys2Proof.Machine
end

section
/-! PROOFS. The statement of 42_rf_transmitter.md on a reset in a frame: the holds recorded are the part of the frame that was
sent. -/

namespace Sys2Proof.Machine

/-- The frame starts before all that is still to come of it. -/
theorem framesIn_remaining (t : State) : framesIn (remaining t) = 0 := by
  cases htx : t.txs <;> simp [remaining, htx, holdEvent]

/-- The sync pulse and the gap last 151 quanta (42_rf_transmitter.md R137). -/
theorem durations_frameEnd_sum : (durations [.rf true 200, .critOff, .wdtKick, .rf false 30000]).sum = 30200 := rfl

/-- The last n symbols of a frame and what follows them. -/
theorem durations_symbols_end_sum (cw : Codeword) (n : Nat) :
    (durations (symbols cw n ++ [.rf true 200, .critOff, .wdtKick, .rf false 30000])).sum = 800 * n + 30200 := by
  rw [durations_append, List.sum_append, durations_symbols_sum, durations_frameEnd_sum]

/-- What is still to come lasts as long as the quanta not yet begun and the whole of the hold in progress
(42_rf_transmitter.md R141). -/
theorem FrameInv.durations_remaining {t : State} (hf : FrameInv t) :
    (durations (remaining t)).sum + 200 * position t = 49400 + 200 * (holdQuanta t.txs t.cur - t.qcnt) := by
  have hwhole : holdQuanta .bitHi t.cur + holdQuanta .bitLo t.cur = 4 := by cases t.cur <;> rfl
  obtain ⟨hq1, hq2⟩ := hf.hold
  cases htx : t.txs with
  | idle => exact absurd htx hf.running
  | bitHi =>
    obtain ⟨hb1, hb2, -⟩ := hf.bits (.inl htx)
    simp only [remaining, position, htx, holdEvent, List.cons_append, List.nil_append, durations_rf, List.sum_cons,
      durations_symbols_end_sum]
    omega
  | bitLo =>
    obtain ⟨hb1, hb2, -⟩ := hf.bits (.inr htx)
    simp only [remaining, position, htx, holdEvent, List.cons_append, List.nil_append, durations_rf, List.sum_cons,
      durations_symbols_end_sum]
    omega
  | sync =>
    rw [htx, holdQuanta_sync] at hq2
    simp only [remaining, position, htx, durations_frameEnd_sum, holdQuanta_sync]
    omega
  | gap =>
    simp only [remaining, position, htx, durations_rf, durations_nil, List.sum_cons, List.sum_nil, holdQuanta_gap]
    omega

/-- Inside a frame the trace is that before the tick, the refresh, and the events of the frame up to the hold in
progress. -/
theorem MidFrame.trace_eq {s t : State} {es rest : List EnvCycle} (hm : MidFrame s es rest t) :
    ∃ gs, t.trace = s.trace ++ [.wdtKick] ++ gs ∧ gs ++ remaining t = wave s.cw := by
  have hevents : t.trace ++ remaining t = (s.trace ++ [.wdtKick]) ++ wave s.cw := by
    rw [hm.events, List.append_assoc]
    rfl
  rcases List.append_eq_append_iff.mp hevents with ⟨cs, -, hremaining⟩ | ⟨gs, htrace, hwave⟩
  · have hframes := framesIn_remaining t
    rw [hremaining, framesIn_append, framesIn_wave] at hframes
    cases hframes
  · exact ⟨gs, htrace, hwave.symm⟩

/-- A hold cut short takes the levels of the list that far, every microsecond. -/
theorem levelsEvery_one_cut (gs hs : List Event) (l : Bool) {n m : Nat} (h : n ≤ m) :
    levelsEvery 1 (gs ++ [.rf l n]) =
      (levelsEvery 1 (gs ++ .rf l m :: hs)).take (durations (gs ++ [.rf l n])).sum := by
  rw [← levelsEvery_one_length]
  simp [List.take_append, h]

/-- The levels and the durations of the events so far, the hold in progress cut after `us` µs of its quantum
(42_rf_transmitter.md R143). -/
theorem MidFrame.cut {s t : State} {es rest : List EnvCycle} (hm : MidFrame s es rest t) {us : Nat} (hus : us ≤ 200) :
    ∃ fs, t.trace ++ [.rf t.rfOut (holdElapsed us t)] = s.trace ++ [.wdtKick] ++ fs ∧
      (durations fs).sum = 200 * es.length + us ∧
      levelsEvery 1 fs = (levelsEvery 1 (wave s.cw)).take (200 * es.length + us) := by
  obtain ⟨gs, htrace, hwave⟩ := hm.trace_eq
  obtain ⟨hs, hhead⟩ := remaining_head t hm.frame
  obtain ⟨hq1, hq2⟩ := hm.frame.hold
  have hlast := hm.frame.durations_remaining
  rw [hm.pos] at hlast
  have hall : (durations gs).sum + (durations (remaining t)).sum = 49400 := by
    rw [← List.sum_append, ← durations_append, hwave, durations_wave]
    simp
  have hsum : (durations (gs ++ [.rf t.rfOut (holdElapsed us t)])).sum = 200 * es.length + us := by
    simp only [durations_append, durations_rf, durations_nil, List.sum_append, List.sum_singleton, holdElapsed,
      Config.quantum]
    omega
  refine ⟨_, by rw [htrace, List.append_assoc], hsum, ?_⟩
  rw [← hsum, ← hwave, hhead]
  refine levelsEvery_one_cut gs hs t.rfOut ?_
  simp only [holdElapsed, Config.quantum]
  omega

/-- A reset cycle without offers, in a frame or not, is the reset at its instant. -/
theorem step_resetCycleAt {s : State} {us : Fin 200} {rest : List EnvCycle} (henv : s.env = resetCycleAt us :: rest) :
    step s = .next (enterReset (us.val + 1) (setEnv rest s)) := by
  have hcycle := currentCycle_of_env henv
  rw [step_reset (by rw [hcycle]; rfl), hcycle, takeOffers_of_no_offer rfl rfl, resetCycle, cutWrite_of_no_cut rfl, henv]
  rfl

/-- Settles O36: the reset finds the transmitter inside the frame, and records what has been sent of the hold in progress. -/
theorem resetCutsTheFrame : Obligations.ResetCutsTheFrame := by
  unfold Obligations.ResetCutsTheFrame
  intro s es rest us hs hlen hes henv
  obtain ⟨t, hrun, hm⟩ := runFor_midFrame hs hlen hes henv
  have hstep := step_resetCycleAt (s := t) hm.kept.env
  obtain ⟨fs, htrace, hsum, hlevels⟩ := hm.cut (us := us.val + 1) us.isLt
  obtain ⟨-, hcw, hrep, -, -, hbusy, hcrit, hrf, htxs, -, -⟩ := enterReset_registers (us.val + 1) (setEnv rest t)
  obtain ⟨-, -, -, -, hreset⟩ := enterReset_outside (us.val + 1) (setEnv rest t)
  rw [setEnv_busy, hm.busy] at hreset
  refine ⟨_, fs, runFor_succ_of_step hrun hstep, hrf, hcrit, hbusy, htxs, hrep, hcw, ?_, hsum, hlevels⟩
  rw [hreset, ← htrace]
  rfl

end Sys2Proof.Machine
end

section
/-! PROOFS. The statement of 43_command_decoder.md on a command repeated, and what a command leaves of the job. -/

namespace Sys2Proof.Machine

/-! ## The job after a command -/

/-- A WRITE of a ready block is its command and an Ack. -/
theorem runOp_write_exec {r : Report} {s t : State} (hr : ready s = true) (h : runOp (.write r) s = some t) :
    ∃ u, exec (decode r) s = .next u ∧ t = emit .ack u := by
  obtain ⟨u, hexec, hrun⟩ := runOp_write r hr
  exact ⟨u, hexec, (Option.some.inj (hrun.symm.trans h)).symm⟩

/-- The job a socket command submits (43_command_decoder.md R167). -/
theorem exec_job {i : Instr} {act : Action} {s t : State} (hact : i.action = some act) (h : exec i s = .next t) :
    t.rep = 10 ∧ t.deb = debounceOf act := by
  rw [exec_socket hact] at h
  cases h
  exact ⟨rfl, rfl⟩

/-- The other commands keep the job (43_command_decoder.md R165, R166). -/
theorem exec_sameJob {i : Instr} {s t : State} (hact : i.action = none) (h : exec i s = .next t) : sameJob s t := by
  obtain ⟨act, hact', -⟩ | ⟨a, -, rfl⟩ | ⟨-, rfl⟩ := exec_cases h
  · rw [hact] at hact'
    cases hact'
  · exact ⟨rfl, rfl, rfl⟩
  · exact ⟨rfl, rfl, rfl⟩

/-! ## The same command again -/

/-- An action sets its bits of MASK to levels of its own, so the second time nothing is left to set (10_state.md R22). -/
theorem maskAfter_idempotent (act : Action) (m : Mask) : maskAfter act (maskAfter act m) = maskAfter act m := by
  apply BitVec.eq_of_getLsbD_eq
  intro i hi
  rw [maskAfter_bit act _ i hi, maskAfter_bit act m i hi]
  cases commandsBit i act <;> rfl

/-- Settles O15: the job depends on ADDR alone, which a socket command keeps, and MASK is already as commanded. -/
theorem repeatedCommandIsIdempotent : Obligations.RepeatedCommandIsIdempotent := by
  unfold Obligations.RepeatedCommandIsIdempotent
  intro i s t hsocket hexec
  obtain ⟨act, hact⟩ := (isSocketCommand_iff i).mp hsocket
  rw [exec_socket hact] at hexec
  have hmask : maskAfter act t.mask = t.mask := by
    cases hexec
    exact maskAfter_idempotent act s.mask
  rw [exec_socket hact, hmask]
  cases hexec
  rfl

end Sys2Proof.Machine
end

section
/-! PROOFS. The statements of 44_scheduler.md: the moves of the scheduler's states, and retries that postpone the first frame. -/

namespace Sys2Proof.Machine

/-! ## The scheduler -/

/-- SCHED is a function of REP and DEB (10_state.md R26). -/
theorem sched_congr {s t : State} (h : sameJob s t) : sched t = sched s := by
  obtain ⟨-, hrep, hdeb⟩ := h
  simp only [sched, hrep, hdeb]

/-- The rows of TICK, scheduler state by scheduler state (44_scheduler.md R181). -/
theorem sched_tickWhole (s : State) :
    (sched s = .idle → sched (tickWhole s) = .idle) ∧
    (sched s = .debouncing → 1 < s.deb → sched (tickWhole s) = .debouncing ∧ (tickWhole s).deb = s.deb - 1) ∧
    (sched s = .debouncing → s.deb = 1 → sched (tickWhole s) = .transmitting ∧ (tickWhole s).deb = 0) ∧
    (sched s = .transmitting → 1 < s.rep → sched (tickWhole s) = .transmitting ∧ (tickWhole s).rep = s.rep - 1) ∧
    (sched s = .transmitting → s.rep = 1 →
      sched (tickWhole s) = .idle ∧ (tickWhole s).rep = 0 ∧ (tickWhole s).cw = 0) := by
  simp only [sched_eq_idle, sched_eq_debouncing, sched_eq_transmitting]
  refine ⟨fun hrep => ?_, fun ⟨hrep, hdeb⟩ hmore => ?_, fun ⟨hrep, hdeb⟩ hlast => ?_, fun ⟨hrep, hdeb⟩ hmore => ?_,
    fun ⟨hrep, hdeb⟩ hlast => ?_⟩
  · rw [tickWhole_idle hrep]
    exact hrep
  · rw [tickWhole_debouncing hrep hdeb, setJob_rep, setJob_deb]
    omega
  · rw [tickWhole_debouncing hrep hdeb, setJob_rep, setJob_deb]
    omega
  · rw [tickWhole_transmitting hrep hdeb, setJob_rep, setJob_deb]
    omega
  · rw [tickWhole_transmitting hrep hdeb, setJob_rep, setJob_cw, hlast]
    exact ⟨rfl, rfl, rfl⟩

/-- Settles O21, operation by operation. -/
theorem schedulerMoves : Obligations.SchedulerMoves := by
  unfold Obligations.SchedulerMoves
  intro s t hr
  refine ⟨fun h => ?_, fun r act hact h => ?_, fun r hact h => ?_, fun h => ?_, fun h => ?_⟩
  · obtain rfl : tickWhole s = t := Option.some.inj ((runOp_tick hr).symm.trans h)
    exact sched_tickWhole s
  · obtain ⟨u, hexec, rfl⟩ := runOp_write_exec hr h
    obtain ⟨hrep, hdeb⟩ := exec_job hact hexec
    rw [sched_of_pending (by rw [emit_rep, hrep]; decide), emit_deb, hdeb]
  · obtain ⟨u, hexec, rfl⟩ := runOp_write_exec hr h
    have hjob : sameJob s u := exec_sameJob hact hexec
    exact ⟨sched_congr hjob, hjob⟩
  · obtain rfl := runOp_read h
    have hjob : sameJob s (readOp s) := ⟨rfl, rfl, rfl⟩
    exact ⟨sched_congr hjob, hjob⟩
  · obtain rfl : resetOp s = t := Option.some.inj h
    exact (sched_eq_idle _).mpr rfl

/-! ## Retries -/

/-- Within its debounce a command's ticks only refresh the watchdog (44_scheduler.md R187). -/
theorem burst_of_le_debounce (cw : Codeword) {d k : Nat} (h : k ≤ d) : burst cw d k = List.replicate k .wdtKick := by
  induction k with
  | zero => rfl
  | succ k ih => rw [burst_succ, ih (by omega), burstTick, if_pos (by omega), List.replicate_succ']

theorem durations_replicate_wdtKick (k : Nat) : durations (List.replicate k .wdtKick) = [] := by
  induction k with
  | zero => rfl
  | succ k ih => rw [List.replicate_succ, durations_wdtKick, ih]

/-- Ticks within the debounce of a fresh job start no frame (44_scheduler.md R187). -/
theorem AfterTicks.startsNoFrame {t u : State} {k : Nat} (h : AfterTicks t k u) (hk : k ≤ t.deb) : StartsNoFrame t u := by
  refine ⟨_, h.trace, ?_, fun _ => ?_⟩
  · rw [framesIn_burst, Nat.sub_eq_zero_of_le hk, Nat.zero_min]
  · rw [burst_of_le_debounce _ hk, durations_replicate_wdtKick]

/-- One round of retries: a report, then the ticks until the next one. -/
def roundOps (p : Report × Nat) : List Op := .write p.1 :: List.replicate p.2 .tick

/-- The report of the round is a socket command, and no more ticks follow than its own debounce (44_scheduler.md R188). -/
def WithinDebounce (p : Report × Nat) : Prop := ∃ act, (decode p.1).action = some act ∧ p.2 ≤ debounceOf act

/-- A round within its debounce starts no frame and ends in a ready state. -/
theorem runOps_round {p : Report × Nat} {s : State} (hr : ready s = true) (hp : WithinDebounce p) :
    ∃ u, runOps (roundOps p) s = some u ∧ ready u = true ∧ u.busy = s.busy ∧ StartsNoFrame s u := by
  obtain ⟨act, hact, hk⟩ := hp
  obtain ⟨t, hexec, hwrite, hready⟩ := runOp_write_ready p.1 hr
  obtain ⟨hrep, hdeb⟩ := exec_job hact hexec
  obtain ⟨-, hbusy, -⟩ := exec_ports hexec
  obtain ⟨u, hticks, hu⟩ := afterTicks hready hrep p.2
  have hquiet : StartsNoFrame s u := (write_startsNoFrame hexec).trans hbusy (hu.startsNoFrame (hdeb ▸ hk))
  have hbusy' : u.busy = s.busy := ((ready_iff u).mp hu.isReady).2.trans ((ready_iff s).mp hr).2.symm
  exact ⟨u, by rw [roundOps, runOps, hwrite]; exact hticks, hu.isReady, hbusy', hquiet⟩

/-- Rounds within their debounces start no frame, one after the other. -/
theorem runOps_rounds {rounds : List (Report × Nat)} {s : State} (hr : ready s = true)
    (hrounds : ∀ p ∈ rounds, WithinDebounce p) :
    ∃ u, runOps (rounds.flatMap roundOps) s = some u ∧ StartsNoFrame s u := by
  induction rounds generalizing s with
  | nil => exact ⟨s, rfl, .of_trace_eq rfl⟩
  | cons p rounds ih =>
    obtain ⟨hp, hrounds⟩ := List.forall_mem_cons.mp hrounds
    obtain ⟨t, hround, hready, hbusy, hquiet⟩ := runOps_round hr hp
    obtain ⟨u, hrun, hquiet'⟩ := ih hready hrounds
    refine ⟨u, ?_, hquiet.trans hbusy hquiet'⟩
    rw [List.flatMap_cons, runOps_append, hround]
    exact hrun

/-- Settles O23, by induction on the rounds. -/
theorem retriesPostponeTheFirstFrame : Obligations.RetriesPostponeTheFirstFrame := by
  unfold Obligations.RetriesPostponeTheFirstFrame
  intro s rounds hr hrounds
  obtain ⟨u, hrun, es, htrace, hframes, hdurations⟩ := runOps_rounds hr hrounds
  refine ⟨u, hrun, ?_, ?_⟩
  · rw [htrace, framesIn_append, hframes, Nat.add_zero]
  · rw [htrace, durations_append, hdurations ((ready_iff s).mp hr).2, List.append_nil]

end Sys2Proof.Machine
end

section
/-! PROOFS. The statement of 60_exceptions.md on offers of one cycle: a write before a read before a tick. -/

namespace Sys2Proof.Machine

/-- The report offered to a ready block with nothing waiting is taken in its own cycle; a read of the same cycle waits
(60_exceptions.md R216). -/
theorem step_write_with_read {s : State} {r : Report} {lost : Bool} {later : List EnvCycle} (hr : ready s = true)
    (hwr : s.wrQueue = []) (hrd : s.rdWaiting = 0) (henv : s.env = ⟨none, some r, true, lost⟩ :: later) :
    ∃ t, writeOp r { s with rdWaiting := 1, env := later } = .next t ∧ step s = .next t ∧ ready t = true ∧
      t.wrQueue = [] ∧ t.rdWaiting = 1 ∧ t.env = later := by
  obtain ⟨hboot, hbusy⟩ := (ready_iff s).mp hr
  have hcycle := currentCycle_of_env henv
  have htakes : takes s r [] := ⟨by rw [hcycle], hboot, hbusy, by rw [offeredReports, hwr, hcycle]; rfl⟩
  have haccepted : acceptedState s [] = { s with rdWaiting := 1, env := later } := by
    rw [acceptedState, hrd, hcycle, ← hwr, henv]
    rfl
  obtain ⟨u, hexec, hwrite⟩ := writeOp_next r (acceptedState s [])
  obtain ⟨hboot', hbusy', hwr', hrd', henv'⟩ := exec_ports hexec
  rw [haccepted] at hwrite hrd' henv'
  exact ⟨emit .ack u, hwrite, (step_takes htakes).trans (haccepted ▸ hwrite),
    (ready_iff _).mpr ⟨hboot'.trans hboot, hbusy'.trans hbusy⟩, hwr', hrd', henv'⟩

/-- With no report the read that waits is served, strobe or not (60_exceptions.md R216). -/
theorem step_waiting_read {s : State} {lost : Bool} {later : List EnvCycle} (hr : ready s = true) (hwr : s.wrQueue = [])
    (hrd : s.rdWaiting = 1) (henv : s.env = ⟨none, none, false, lost⟩ :: later) :
    step s = .next (readOp { s with rdWaiting := 0, env := later }) := by
  have hcycle := currentCycle_of_env henv
  rw [step_read hr (by rw [hcycle]) (by rw [offeredReports, hwr, hcycle]; rfl) (by rw [hrd, hcycle]; exact Nat.one_ne_zero),
    hrd, hcycle, henv]
  rfl

/-- With nothing waiting and nothing offered a strobe is performed (60_exceptions.md R216). -/
theorem step_only_tick {s : State} {again : Bool} {later : List EnvCycle} (hr : ready s = true) (hwr : s.wrQueue = [])
    (hrd : s.rdWaiting = 0) (henv : s.env = ⟨none, none, false, again⟩ :: later) :
    step s = .next (if again then tickStart { s with env := later } else { s with env := later }) := by
  have hcycle := currentCycle_of_env henv
  rw [step_no_offer hr (by rw [hcycle]) (by rw [offeredReports, hwr, hcycle]; rfl) (by rw [hrd, hcycle]; rfl), hcycle,
    henv]
  rfl

/-- Settles O31, cycle by cycle. -/
theorem sameCycleOrder : Obligations.SameCycleOrder := by
  unfold Obligations.SameCycleOrder
  intro s r lost again rest hr hwr hrd henv
  obtain ⟨t1, hwrite, hstep1, hr1, hwr1, hrd1, henv1⟩ := step_write_with_read hr hwr hrd henv
  have hstep2 := step_waiting_read hr1 hwr1 hrd1 henv1
  have hstep3 := step_only_tick (s := readOp { t1 with rdWaiting := 0, env := ⟨none, none, false, again⟩ :: rest })
    (again := again) (later := rest) hr1 hwr1 rfl rfl
  have hrun1 := runFor_succ_of_step (k := 0) rfl hstep1
  have hrun2 := runFor_succ_of_step hrun1 hstep2
  rw [henv]
  exact ⟨t1, _, _, hrun1, hrun2, runFor_succ_of_step hrun2 hstep3, hwrite, rfl, rfl⟩

end Sys2Proof.Machine
end
